-- ==== Sys2Proof/Word.lean ====
section
/-! DEFINITION. The widths of the block's words (spec/00_scope.md R6, R10; spec/30_encoding.md R80, R105). -/

namespace Sys2Proof

/-- A command word `cmd[71:0]` (30_encoding.md R80). -/
abbrev CmdWord := BitVec 72

/-- One byte of a host's sample buffer or of a formatted timecode (20_memory.md R62, 30_encoding.md R106). -/
abbrev Byte := BitVec 8

/-- An amplitude, two's complement (20_memory.md R63). -/
abbrev Amplitude := BitVec 16

/-- A packed timecode: eight 4-bit digits `H1 H0 M1 M0 S1 S0 F1 F0` (00_scope.md R13, 30_encoding.md R105). -/
abbrev Timecode := BitVec 32

/-- A frame index, unsigned (00_scope.md R6 `IDX_W`). -/
abbrev Index := BitVec 32

/-- The value of a host-visible register on the port (10_state.md R38). -/
abbrev RegValue := BitVec 32

/-- A register selector (10_state.md R38). -/
abbrev Sel := BitVec 8

/-- An 80-bit LTC frame: bit `i` is `f[i]`, the bit that arrived `i`-th (00_scope.md R11, 41_frame_sync.md R144). -/
abbrev Frame := BitVec 80

end Sys2Proof
end

