-- ==== Sys2Proof/Config.lean ====
section
/-! DEFINITION. The implementation parameters of spec/00_scope.md R6, and the shape of the frame layout table of
spec/30_encoding.md R100 (its values are `Machine.ltcLayout`). The spec leaves no value of a step open (R9), so there
is no free value here. -/

namespace Sys2Proof.Config

/-- `T_SHORT_MIN` (00_scope.md R6): the shortest run that counts as a half bit-cell. UNVERIFIED literal, log entry 7. -/
def tShortMin : Nat := 7

/-- `T_SHORT_MAX` (00_scope.md R6): the longest run that counts as a half bit-cell. UNVERIFIED literal, log entry 7. -/
def tShortMax : Nat := 14

/-- `RUN_INIT` (00_scope.md R6). -/
def runInit : Nat := 1

/-- `RUN_SAT` (00_scope.md R6): the run counter saturates here. -/
def runSat : Nat := 15

/-- `SYNC_LEN` (00_scope.md R6). -/
def syncLen : Nat := 16

/-- `SYNC` (00_scope.md R6) in arrival order, first-arrived bit first: `0011111111111101`. -/
def syncArrival : List Bool :=
  [false, false, true, true, true, true, true, true, true, true, true, true, true, true, false, true]

/-- `SYNC` as the slice `sr[79:64]`, newest bit most significant (30_encoding.md R101). -/
def sync : BitVec 16 := 0xBFFC#16

/-- `FRAME_LEN` (00_scope.md R6). -/
def frameLen : Nat := 80

/-- `CUT_LEN` (00_scope.md R6): a frame is cut only when the accumulated length is greater than this. -/
def cutLen : Nat := 80

/-- `LEN_SAT` (00_scope.md R6): the accumulated-length counter saturates here. -/
def lenSat : Nat := 81

/-- `TC_DEFAULT` (00_scope.md R6). -/
def tcDefault : Timecode := 0#32

/-- `TC_SENTINEL` (00_scope.md R6): the aggregator's "no detection". -/
def tcSentinel : Timecode := 0#32

/-- `FF_MAX` at reset (00_scope.md R6). -/
def ffMaxReset : BitVec 6 := 39#6

/-- One multi-bit field of the frame: first bit and width; the first-arrived bit is the least significant one (30_encoding.md R100). -/
structure FieldPos where
  lo    : Nat
  width : Nat
  deriving DecidableEq, Repr

/-- The frame layout as one object (30_encoding.md R100, 92_eei_decisions.md D9): the BCD fields by their names in the
rules, the low bit of each 4-bit user nibble 1 to 8, and the six flag positions of `flags[0]` to `flags[5]`. -/
structure LtcLayout where
  fu : FieldPos
  ft : FieldPos
  su : FieldPos
  st : FieldPos
  mu : FieldPos
  mt : FieldPos
  hu : FieldPos
  ht : FieldPos
  userNibbles : List Nat
  flagBits    : List Nat
  syncWord    : FieldPos
  deriving DecidableEq, Repr

end Sys2Proof.Config
end

