-- ==== Sys2Proof/Machine/Timecode.lean ====
section
/-! DEFINITION. Packed timecodes: digits, the decimal check, packing of field values and the string form
(spec/00_scope.md R13; spec/30_encoding.md R105 to R107; spec/42_frame_parser_latch.md R164, R165). -/

namespace Sys2Proof.Machine

/-- Digit `i` of a packed timecode, digit 0 being `F0` and digit 7 `H1` (00_scope.md R13). -/
def tcDigit (t : Timecode) (i : Nat) : Nat := (t.extractLsb' (4 * i) 4).toNat

/-- `isDecimal(t)`: each of the eight 4-bit digits is at most 9 (00_scope.md R13). -/
def isDecimal (t : Timecode) : Bool := [0, 1, 2, 3, 4, 5, 6, 7].all fun i => decide (tcDigit t i ≤ 9)

/-- One decimal digit as four bits. -/
def digitBits (d : Nat) : BitVec 4 := BitVec.ofNat 4 d

/-- A field value below 100 as its two decimal digits, tens in the high nibble (42_frame_parser_latch.md R165). -/
def twoDigits (v : Nat) : BitVec 8 := digitBits (v / 10) ++ digitBits (v % 10)

/-- The packed timecode of four field values: `{HH, MM, SS, FF}`, two digits each (42_frame_parser_latch.md R160, R165). -/
def packTimecode (hh mm ss ff : Nat) : Timecode := twoDigits hh ++ twoDigits mm ++ twoDigits ss ++ twoDigits ff

/-- The ASCII code of a decimal digit, `0x30 + d` (30_encoding.md R106). -/
def asciiDigit (d : Nat) : Byte := BitVec.ofNat 8 (0x30 + d)

/-- `fmt(t)`: the 11 characters `H1 H0 ':' M1 M0 ':' S1 S0 ':' F1 F0` (30_encoding.md R106). -/
def fmt (t : Timecode) : List Byte :=
  [asciiDigit (tcDigit t 7), asciiDigit (tcDigit t 6), 0x3A#8, asciiDigit (tcDigit t 5), asciiDigit (tcDigit t 4), 0x3A#8,
   asciiDigit (tcDigit t 3), asciiDigit (tcDigit t 2), 0x3A#8, asciiDigit (tcDigit t 1), asciiDigit (tcDigit t 0)]

/-- Eight decimal digits in reading order, packed as `H1 H0 M1 M0 S1 S0 F1 F0` (30_encoding.md R107). -/
def packDigits (h1 h0 m1 m0 s1 s0 f1 f0 : Nat) : Timecode :=
  digitBits h1 ++ digitBits h0 ++ digitBits m1 ++ digitBits m0 ++ digitBits s1 ++ digitBits s0 ++ digitBits f1 ++ digitBits f0

end Sys2Proof.Machine
end

