-- ==== Sys2Proof/Syntax.lean ====
section
/-! DEFINITION. The ten commands of spec/30_encoding.md R82 as one inductive, with the operands each uses. -/

namespace Sys2Proof

/-- One constructor per row of spec/opcode_table.json. An operand carries exactly the bits the command uses; the
other operand bits are ignored (30_encoding.md R81) and stand in no constructor. -/
inductive Instr where
  | nop                                      -- NOP, 44_control.md R220
  | sample (s0 s1 : Amplitude)               -- SAMPLE, 40_demodulator.md R120
  | newpass                                  -- NEWPASS, 40_demodulator.md R130
  | srst                                     -- SRST, 44_control.md R222
  | obs (t : Timecode) (idx : Index)         -- OBS, 43_segment_aggregator.md R190
  | obsl (idx : Index)                       -- OBSL, 43_segment_aggregator.md R196
  | endInput                                 -- END, 43_segment_aggregator.md R198
  | endat (n : Index)                        -- ENDAT, 43_segment_aggregator.md R199
  | rdreg (sel : Sel)                        -- RDREG, 44_control.md R224
  | wrreg (sel : Sel) (v : RegValue)         -- WRREG, 44_control.md R226
  deriving DecidableEq, Repr

/-- The polarity of one observation (40_demodulator.md R121). -/
inductive Polarity where
  | pos
  | neg
  deriving DecidableEq, Repr

/-- The class of a completed run (40_demodulator.md R123). -/
inductive RunClass where
  | short
  | long
  | noise
  deriving DecidableEq, Repr

end Sys2Proof
end

