-- ==== Sys2Proof/WellFormed.lean ====
section
/-! DEFINITION. What an assembled command is. Operand WIDTHS need no check: the types of `Instr` carry them, and every
one of the 2^72 command words has an effect (spec/30_encoding.md R88). What the text form can write (R90) is narrower:
a timecode operand is eight decimal digits. -/

namespace Sys2Proof

/-- A command the text form of 30_encoding.md R90 can write: the timecode of an `OBS` is `HH:MM:SS:FF`, eight decimal
digits. The block also runs an `OBS` that is not well formed: it faults `BADTC` (43_segment_aggregator.md R190). -/
def Instr.wf : Instr → Bool
  | .nop => true
  | .sample _ _ => true
  | .newpass => true
  | .srst => true
  | .obs t _ => Machine.isDecimal t
  | .obsl _ => true
  | .endInput => true
  | .endat _ => true
  | .rdreg _ => true
  | .wrreg _ _ => true

end Sys2Proof
end

