-- ==== Sys2Proof/Decode.lean ====
section
/-! DEFINITION. The decoder (total on all 2^72 words) and the encoder (spec/30_encoding.md R80 to R88). -/

namespace Sys2Proof

/-- What the decoder reads from a command word: one of the ten commands, or a reserved opcode, named (30_encoding.md R88). -/
inductive Decoded where
  | instr (i : Instr)
  | reserved (op : BitVec 8)
  deriving DecidableEq, Repr

/-- `op = cmd[71:64]` (30_encoding.md R80). -/
def CmdWord.op (w : CmdWord) : BitVec 8 := w.extractLsb' 64 8

/-- `a = cmd[63:32]` (30_encoding.md R80). -/
def CmdWord.a (w : CmdWord) : BitVec 32 := w.extractLsb' 32 32

/-- `b = cmd[31:0]` (30_encoding.md R80). -/
def CmdWord.b (w : CmdWord) : BitVec 32 := w.extractLsb' 0 32

/-- `s0 = b[15:0]` (30_encoding.md R84). -/
def opndS0 (w : CmdWord) : Amplitude := (CmdWord.b w).extractLsb' 0 16

/-- `s1 = b[31:16]` (30_encoding.md R84). -/
def opndS1 (w : CmdWord) : Amplitude := (CmdWord.b w).extractLsb' 16 16

/-- `sel = a[7:0]` (30_encoding.md R87). -/
def opndSel (w : CmdWord) : Sel := (CmdWord.a w).extractLsb' 0 8

/-- The decoder: it looks at `op` alone (30_encoding.md R81) and takes the operands of R82. -/
def decode (w : CmdWord) : Decoded :=
  let op := CmdWord.op w
  if op = 0x00#8 then .instr .nop
  else if op = 0x01#8 then .instr (.sample (opndS0 w) (opndS1 w))
  else if op = 0x02#8 then .instr .newpass
  else if op = 0x03#8 then .instr .srst
  else if op = 0x10#8 then .instr (.obs (CmdWord.a w) (CmdWord.b w))
  else if op = 0x11#8 then .instr (.obsl (CmdWord.b w))
  else if op = 0x12#8 then .instr .endInput
  else if op = 0x13#8 then .instr (.endat (CmdWord.b w))
  else if op = 0x20#8 then .instr (.rdreg (opndSel w))
  else if op = 0x21#8 then .instr (.wrreg (opndSel w) (CmdWord.b w))
  else .reserved op

/-- The opcode of a command, `op = cmd[71:64]` (30_encoding.md R82). -/
def Instr.opcode : Instr → BitVec 8
  | .nop => 0x00#8
  | .sample _ _ => 0x01#8
  | .newpass => 0x02#8
  | .srst => 0x03#8
  | .obs _ _ => 0x10#8
  | .obsl _ => 0x11#8
  | .endInput => 0x12#8
  | .endat _ => 0x13#8
  | .rdreg _ => 0x20#8
  | .wrreg _ _ => 0x21#8

/-- Which bits of the word a command reads: the opcode and the operand bits of 30_encoding.md R82. -/
def Instr.usedBits : Instr → CmdWord
  | .nop => 0xFF0000000000000000#72
  | .sample _ _ => 0xFF00000000FFFFFFFF#72
  | .newpass => 0xFF0000000000000000#72
  | .srst => 0xFF0000000000000000#72
  | .obs _ _ => 0xFFFFFFFFFFFFFFFFFF#72
  | .obsl _ => 0xFF00000000FFFFFFFF#72
  | .endInput => 0xFF0000000000000000#72
  | .endat _ => 0xFF00000000FFFFFFFF#72
  | .rdreg _ => 0xFF000000FF00000000#72
  | .wrreg _ _ => 0xFF000000FFFFFFFFFF#72

/-- `{op, a, b}` (30_encoding.md R80). -/
def mkCmd (op : BitVec 8) (a b : BitVec 32) : CmdWord := op ++ a ++ b

/-- The operand `a` of an assembled command; ignored bits are zero (30_encoding.md R82, R90). -/
def Instr.operandA : Instr → BitVec 32
  | .nop => 0#32
  | .sample _ _ => 0#32
  | .newpass => 0#32
  | .srst => 0#32
  | .obs t _ => t
  | .obsl _ => 0#32
  | .endInput => 0#32
  | .endat _ => 0#32
  | .rdreg sel => 0#24 ++ sel
  | .wrreg sel _ => 0#24 ++ sel

/-- The operand `b` of an assembled command; ignored bits are zero (30_encoding.md R82, R90). -/
def Instr.operandB : Instr → BitVec 32
  | .nop => 0#32
  | .sample s0 s1 => s1 ++ s0
  | .newpass => 0#32
  | .srst => 0#32
  | .obs _ idx => idx
  | .obsl idx => idx
  | .endInput => 0#32
  | .endat n => n
  | .rdreg _ => 0#32
  | .wrreg _ v => v

/-- The assembled word of a command: every ignored operand bit is zero (30_encoding.md R90). -/
def encode (i : Instr) : CmdWord := mkCmd i.opcode i.operandA i.operandB

/-- A word as the text form assembles it: one of the ten opcodes and every ignored operand bit zero (30_encoding.md R90). -/
def canonicalWord (w : CmdWord) : Bool :=
  match decode w with
  | .instr i => decide (w &&& ~~~i.usedBits = 0#72)
  | .reserved _ => false

/-- The 72-bit word the port carries for a table word of `nbits` bits: the word is one parallel value (20_memory.md
R65), its bit `k` is `cmd[k]`, and every bit above `nbits` is zero. -/
def tableWord (nbits w : Nat) : CmdWord := BitVec.ofNat 72 (w % 2 ^ nbits)

/-- The instruction the decoder reads from a table word; none where the opcode is reserved. -/
def decodeTableWord (nbits w : Nat) : Option Instr :=
  match decode (tableWord nbits w) with
  | .instr i => some i
  | .reserved _ => none

end Sys2Proof
end

