-- ==== Sys2Proof/Machine/State.lean ====
section
/-! DEFINITION. The whole state of the block (spec/10_state.md R20 to R46) and, beside it, what the model keeps of the
ports: the pins still to be read and the three output traces (R47; log entries 1 and 2). -/

namespace Sys2Proof.Machine

/-- The four faults of 60_exceptions.md R250. They are recorded in State and the block goes on (R252). -/
inductive FaultCode where
  | illcmd
  | illreg
  | badtc
  | order
  deriving DecidableEq, Repr

/-- The response of an `RDREG`: `rsp_err` and `rsp_data` (30_encoding.md R115). -/
structure Response where
  err  : Bool
  data : RegValue
  deriving DecidableEq, Repr

/-- An event on the event port (30_encoding.md R114); its code and data are `Event.code` and `Event.data`. -/
inductive Event where
  | frame (t : Timecode)
  | malformed (t : Timecode)
  | fault (c : FaultCode)
  deriving DecidableEq, Repr

/-- A segment record (30_encoding.md R110); its 208-bit word is `SegRecord.pack`. -/
structure SegRecord where
  srcid    : BitVec 32
  rate     : BitVec 16
  startTc  : Timecode
  endTc    : Timecode
  startIdx : Index
  endIdx   : Index
  count    : BitVec 32
  deriving DecidableEq, Repr

/-- The three things the latch and its status bits can say (42_frame_parser_latch.md R177). -/
inductive LatchStatus where
  | noFrameYet
  | allRejected
  | synced (t : Timecode)
  deriving DecidableEq, Repr

/-- What the input pins `rst`, `cmd_valid` and `cmd` hold in one step (30_encoding.md R116). -/
structure Pins where
  rst      : Bool
  cmdValid : Bool
  cmd      : CmdWord
  deriving DecidableEq, Repr

/-- The state of the block: the record of 10_state.md R20, field by field, then the model's own four lists. -/
structure State where
  lastPol   : Option Polarity      -- R21
  run       : BitVec 4             -- R22
  toggle    : Bool                 -- R23
  sr        : BitVec 80            -- R24
  len       : BitVec 7             -- R25
  tc        : Timecode             -- R26
  synced    : Bool                 -- R27
  ubits     : BitVec 32            -- R28
  flags     : BitVec 6             -- R29
  segOpen   : Bool                 -- R30, `open`
  prevTc    : Timecode             -- R31
  segStart  : Index                -- R32
  lastIdx   : Index                -- R33
  seen      : Bool                 -- R34
  srcid     : BitVec 32            -- R35
  rate      : BitVec 16            -- R36
  strict    : Bool                 -- R40
  ffMax     : BitVec 6             -- R40
  malformed : Bool                 -- R37
  fIllcmd   : Bool                 -- R39
  fIllreg   : Bool                 -- R39
  fBadtc    : Bool                 -- R39
  fOrder    : Bool                 -- R39
  fcode     : BitVec 4             -- R39
  inputs    : List Pins            -- the model's: pins of the coming steps, oldest first (log entry 1)
  rspTrace  : List Response        -- R47, oldest first
  evtTrace  : List Event           -- R47, oldest first
  segTrace  : List SegRecord       -- R47, oldest first
  deriving DecidableEq, Repr

/-- Reasons to stop with a fault: none. The step is total (00_scope.md R9) and the four faults of R250 leave the block
running (R252), so no step of this machine stops and nobody raises one of these (log entry 10). -/
inductive Fault where
  deriving DecidableEq, Repr

/-- Reasons to refuse an instruction. -/
inductive Refusal where
  /-- Raised by an arm of `exec` that has no meaning yet; no arm of this model is one. Safe: the model stops. -/
  | notModelled (mnemonic : String)
  deriving DecidableEq, Repr

/-- The state after reset (10_state.md R54), with nothing presented yet and empty traces (log entries 1 and 2). -/
def State.reset : State where
  lastPol   := none
  run       := 1#4
  toggle    := true
  sr        := 0#80
  len       := 0#7
  tc        := 0x00000000#32
  synced    := false
  ubits     := 0#32
  flags     := 0#6
  segOpen   := false
  prevTc    := 0x00000000#32
  segStart  := 0#32
  lastIdx   := 0#32
  seen      := false
  srcid     := 0#32
  rate      := 0#16
  strict    := true
  ffMax     := 39#6
  malformed := false
  fIllcmd   := false
  fIllreg   := false
  fBadtc    := false
  fOrder    := false
  fcode     := 0#4
  inputs    := []
  rspTrace  := []
  evtTrace  := []
  segTrace  := []

end Sys2Proof.Machine
end

