-- ==== Sys2Proof/Machine/Operands.lean ====
section
/-! DEFINITION. How operands and frame bits are read: the signed reading and the classifier of a sample pair, the frame
layout and its fields (spec/00_scope.md R12; spec/30_encoding.md R84, R100; spec/40_demodulator.md R121 to R123;
spec/42_frame_parser_latch.md R162 to R167). -/

namespace Sys2Proof.Machine

/-- `signed16(w)` (00_scope.md R12). -/
def signed16 (w : Amplitude) : Int := (w.extractLsb' 0 15).toNat - 32768 * (if w.getLsbD 15 then 1 else 0)

/-- EdgeClassifier: Negative when the signed minimum of the pair is below zero, else Positive (40_demodulator.md R121). -/
def classify (s0 s1 : Amplitude) : Polarity :=
  if min (signed16 s0) (signed16 s1) < 0 then .neg else .pos

/-- The class of a completed run of length `r` (40_demodulator.md R123). -/
def runClass (r : BitVec 4) : RunClass :=
  if Config.tShortMin ≤ r.toNat ∧ r.toNat ≤ Config.tShortMax then .short
  else if Config.tShortMax < r.toNat then .long
  else .noise

/-- The frame layout (30_encoding.md R100). The positions are the spec's general-knowledge passage G1: PRESUMED, log entry 6. -/
def ltcLayout : Config.LtcLayout where
  fu := ⟨0, 4⟩
  ft := ⟨8, 2⟩
  su := ⟨16, 4⟩
  st := ⟨24, 3⟩
  mu := ⟨32, 4⟩
  mt := ⟨40, 3⟩
  hu := ⟨48, 4⟩
  ht := ⟨56, 2⟩
  userNibbles := [4, 12, 20, 28, 36, 44, 52, 60]
  flagBits := [10, 11, 27, 43, 58, 59]
  syncWord := ⟨64, 16⟩

/-- The value of a frame field, first-arrived bit least significant (00_scope.md R11). -/
def fieldValue (p : Config.FieldPos) (frame : Frame) : Nat := (frame.extractLsb' p.lo p.width).toNat

/-- `rawFields(frame)`: the eight BCD nibbles as numbers (42_frame_parser_latch.md R162). -/
structure RawFields where
  fu : Nat
  ft : Nat
  su : Nat
  st : Nat
  mu : Nat
  mt : Nat
  hu : Nat
  ht : Nat
  deriving DecidableEq, Repr

/-- `rawFields(frame)` (42_frame_parser_latch.md R162). -/
def rawFields (frame : Frame) : RawFields where
  fu := fieldValue ltcLayout.fu frame
  ft := fieldValue ltcLayout.ft frame
  su := fieldValue ltcLayout.su frame
  st := fieldValue ltcLayout.st frame
  mu := fieldValue ltcLayout.mu frame
  mt := fieldValue ltcLayout.mt frame
  hu := fieldValue ltcLayout.hu frame
  ht := fieldValue ltcLayout.ht frame

/-- `FF = ft*10 + fu` (42_frame_parser_latch.md R164). -/
def fieldFF (r : RawFields) : Nat := r.ft * 10 + r.fu

/-- `SS = st*10 + su` (42_frame_parser_latch.md R164). -/
def fieldSS (r : RawFields) : Nat := r.st * 10 + r.su

/-- `MM = mt*10 + mu` (42_frame_parser_latch.md R164). -/
def fieldMM (r : RawFields) : Nat := r.mt * 10 + r.mu

/-- `HH = ht*10 + hu` (42_frame_parser_latch.md R164). -/
def fieldHH (r : RawFields) : Nat := r.ht * 10 + r.hu

/-- The packed timecode a frame formats to (42_frame_parser_latch.md R160, R165). -/
def frameTimecode (frame : Frame) : Timecode :=
  let r := rawFields frame
  packTimecode (fieldHH r) (fieldMM r) (fieldSS r) (fieldFF r)

/-- The bits of a list, the first of them least significant, as a number. -/
def bitsValue : List Bool → Nat
  | [] => 0
  | b :: bs => (if b then 1 else 0) + 2 * bitsValue bs

/-- The nibbles of a list, the first of them least significant, as a number. -/
def nibblesValue : List Nat → Nat
  | [] => 0
  | n :: ns => n + 16 * nibblesValue ns

/-- `userBits(frame)`: nibble 1 in bits 3:0, nibble 8 in bits 31:28 (42_frame_parser_latch.md R166). -/
def userBits (frame : Frame) : BitVec 32 :=
  BitVec.ofNat 32 (nibblesValue (ltcLayout.userNibbles.map fun lo => fieldValue ⟨lo, 4⟩ frame))

/-- `flagBits(frame)`: frame bits 10, 11, 27, 43, 58, 59 in bits 0 to 5 (42_frame_parser_latch.md R167). -/
def flagBits (frame : Frame) : BitVec 6 :=
  BitVec.ofNat 6 (bitsValue (ltcLayout.flagBits.map fun i => frame.getLsbD i))

end Sys2Proof.Machine
end

