-- ==== Sys2Proof/Machine/Flags.lean ====
section
/-! DEFINITION. Predicates and the bit-level views of status: the range check of a frame, the sync match and the cut
condition, fault codes, CTRL and STATUS (spec/10_state.md R38 to R46; spec/41_frame_sync.md R142, R143;
spec/42_frame_parser_latch.md R170; spec/60_exceptions.md R250). -/

namespace Sys2Proof.Machine

/-- The code of a fault (60_exceptions.md R250). -/
def FaultCode.code : FaultCode → BitVec 4
  | .illcmd => 1#4
  | .illreg => 2#4
  | .badtc => 3#4
  | .order => 4#4

/-- `evt_code` (30_encoding.md R114). -/
def Event.code : Event → BitVec 4
  | .frame _ => 1#4
  | .malformed _ => 2#4
  | .fault _ => 3#4

/-- `evt_data` (30_encoding.md R114). -/
def Event.data : Event → BitVec 32
  | .frame t => t
  | .malformed t => t
  | .fault c => 0#28 ++ c.code

/-- The match: at least 16 bits accumulated and `sr[79:64]` equal to the sync word (41_frame_sync.md R142). -/
def syncMatch (sr : BitVec 80) (len : BitVec 7) : Bool :=
  decide (Config.syncLen ≤ len.toNat) && decide (sr.extractLsb' 64 16 = Config.sync)

/-- The cut condition: a match with more than 80 bits accumulated (41_frame_sync.md R143). -/
def cutNow (sr : BitVec 80) (len : BitVec 7) : Bool := syncMatch sr len && decide (Config.cutLen < len.toNat)

/-- `valid(fu, su, mu, hu, st, mt, HH, FF)` (42_frame_parser_latch.md R170). -/
def frameValid (r : RawFields) (ffMax : BitVec 6) : Bool :=
  decide (r.fu ≤ 9) && decide (r.su ≤ 9) && decide (r.mu ≤ 9) && decide (r.hu ≤ 9) &&
    decide (r.st ≤ 5) && decide (r.mt ≤ 5) && decide (fieldHH r ≤ 23) && decide (fieldFF r ≤ ffMax.toNat)

/-- `CTRL` as read: `{18'b0, ff_max, 7'b0, strict}` (10_state.md R40). -/
def ctrlWord (s : State) : RegValue := 0#18 ++ s.ffMax ++ 0#7 ++ BitVec.ofBool s.strict

/-- `STATUS` as read: `{20'b0, fcode, f_order, f_badtc, f_illreg, f_illcmd, seen, malformed, open, synced}` (10_state.md R41). -/
def statusWord (s : State) : RegValue :=
  0#20 ++ s.fcode ++ BitVec.ofBool s.fOrder ++ BitVec.ofBool s.fBadtc ++ BitVec.ofBool s.fIllreg ++ BitVec.ofBool s.fIllcmd ++
    BitVec.ofBool s.seen ++ BitVec.ofBool s.malformed ++ BitVec.ofBool s.segOpen ++ BitVec.ofBool s.synced

/-- What `synced`, `malformed` and `tc` mean together (42_frame_parser_latch.md R177). -/
def latchStatus (s : State) : LatchStatus :=
  if s.synced then .synced s.tc else if s.malformed then .allRejected else .noFrameYet

/-- The value of the register numbered `sel`; none when the selector is unmapped (10_state.md R38, R40 to R46). -/
def regRead (sel : Sel) (s : State) : Option RegValue :=
  if sel = 0x00#8 then some (ctrlWord s)
  else if sel = 0x01#8 then some (statusWord s)
  else if sel = 0x02#8 then some s.tc
  else if sel = 0x03#8 then some s.ubits
  else if sel = 0x04#8 then some (0#26 ++ s.flags)
  else if sel = 0x05#8 then some s.srcid
  else if sel = 0x06#8 then some (0#16 ++ s.rate)
  else none

end Sys2Proof.Machine
end

