-- ==== Sys2Proof/Machine/Ops.lean ====
section
/-! DEFINITION. The shared operations: the output ports, raising a fault, the initialisations, register writes, the
assembler's `pushBit`, the parser's `parseAndLatch` and the aggregator's `observe` (spec/00_scope.md R14). -/

namespace Sys2Proof.Machine

/-- `emit Rsp(err, data)` (30_encoding.md R115, 10_state.md R47). -/
def emitRsp (err : Bool) (data : RegValue) (s : State) : State := { s with rspTrace := s.rspTrace ++ [⟨err, data⟩] }

/-- `emit Evt(code, data)` (30_encoding.md R114, 10_state.md R47). -/
def emitEvt (e : Event) (s : State) : State := { s with evtTrace := s.evtTrace ++ [e] }

/-- `emit Seg(rec)` (30_encoding.md R110, 10_state.md R47). -/
def emitSeg (r : SegRecord) (s : State) : State := { s with segTrace := s.segTrace ++ [r] }

/-- The sticky bit of a fault, and the first-fault code (10_state.md R39, 60_exceptions.md R252). -/
def recordFault (c : FaultCode) (s : State) : State :=
  { s with
    fIllcmd := s.fIllcmd || decide (c = .illcmd)
    fIllreg := s.fIllreg || decide (c = .illreg)
    fBadtc := s.fBadtc || decide (c = .badtc)
    fOrder := s.fOrder || decide (c = .order)
    fcode := if s.fcode = 0#4 then c.code else s.fcode }

/-- `raise Fault(c)`: taking a fault, the one operation every faulting command ends in (60_exceptions.md R252). There
is no saved state, no mode, no vector and no return (R261, R262): the block goes on with the next command. -/
def raiseFault (c : FaultCode) (s : State) : State := emitEvt (.fault c) (recordFault c s)

/-- The starting values of the demodulator (40_demodulator.md R130, 10_state.md R54). -/
def clearDemod (s : State) : State := { s with lastPol := none, run := BitVec.ofNat 4 Config.runInit, toggle := true }

/-- The accumulator is emptied (41_frame_sync.md R144, 40_demodulator.md R130). -/
def clearAccumulator (s : State) : State := { s with sr := 0#80, len := 0#7 }

/-- The aggregator's reset state (43_segment_aggregator.md R204). -/
def clearAggregator (s : State) : State :=
  { s with segOpen := false, seen := false, prevTc := Config.tcDefault, segStart := 0#32, lastIdx := 0#32 }

/-- Full reset: every field of 10_state.md R20 at its reset value; the traces keep what was emitted (R47,
44_control.md R222) and the pins of the coming steps stay as they are. -/
def fullReset (s : State) : State :=
  { State.reset with inputs := s.inputs, rspTrace := s.rspTrace, evtTrace := s.evtTrace, segTrace := s.segTrace }

/-- `RegWrite(0x00, v)`: `strict <- v[0]; ff_max <- v[13:8]` (10_state.md R40). -/
def writeCtrl (v : RegValue) (s : State) : State := { s with strict := v.getLsbD 0, ffMax := v.extractLsb' 8 6 }

/-- `RegWrite(0x05, v)` (10_state.md R45). -/
def writeSrcid (v : RegValue) (s : State) : State := { s with srcid := v }

/-- `RegWrite(0x06, v)`: `rate <- v[15:0]` (10_state.md R46). -/
def writeRate (v : RegValue) (s : State) : State := { s with rate := v.extractLsb' 0 16 }

/-- The write of a register; none for a read-only or unmapped selector (44_control.md R226). -/
def regWrite (sel : Sel) (v : RegValue) (s : State) : Option State :=
  if sel = 0x00#8 then some (writeCtrl v s)
  else if sel = 0x05#8 then some (writeSrcid v s)
  else if sel = 0x06#8 then some (writeRate v s)
  else none

/-- The latch update: the whole latch group in one step (42_frame_parser_latch.md R172, 20_memory.md R70). -/
def updateLatch (frame : Frame) (s : State) : State :=
  { s with tc := frameTimecode frame, synced := true, ubits := userBits frame, flags := flagBits frame }

/-- The sticky bit of a rejected frame (42_frame_parser_latch.md R171). -/
def markMalformed (s : State) : State := { s with malformed := true }

/-- `parseAndLatch(frame)` (42_frame_parser_latch.md R160, R171, R172, R175). -/
def parseAndLatch (frame : Frame) (s : State) : State :=
  if s.strict && !frameValid (rawFields frame) s.ffMax then
    emitEvt (.malformed (frameTimecode frame)) (markMalformed s)
  else
    emitEvt (.frame (frameTimecode frame)) (updateLatch frame s)

/-- `{b, sr[79:1]}`: the newest bit enters at `sr[79]`, `sr[0]` falls out (41_frame_sync.md R141). -/
def shiftIn (b : Bool) (sr : BitVec 80) : BitVec 80 := BitVec.cons b (sr.extractLsb' 1 79)

/-- `sat(len + 1, 81)` (41_frame_sync.md R141). -/
def nextLen (len : BitVec 7) : BitVec 7 := BitVec.ofNat 7 (min (len.toNat + 1) Config.lenSat)

/-- The append of `pushBit` (41_frame_sync.md R141). -/
def appendBit (b : Bool) (s : State) : State := { s with sr := shiftIn b s.sr, len := nextLen s.len }

/-- `pushBit(b)` (41_frame_sync.md R141): append, then cut a frame when the accumulator matches the sync word and holds
more than 80 bits; the accumulator is cleared before the frame is parsed (R144). -/
def pushBit (b : Bool) (s : State) : State :=
  let s1 := appendBit b s
  if cutNow s1.sr s1.len then parseAndLatch s1.sr (clearAccumulator s1) else s1

/-- Bits pushed one after another, oldest first (41_frame_sync.md R141). -/
def pushBits : List Bool → State → State
  | [], s => s
  | b :: bs, s => pushBits bs (pushBit b s)

/-- The bits of a frame in arrival order, `f[0]` first (00_scope.md R11). -/
def frameBits (frame : Frame) : List Bool := (List.range Config.frameLen).map fun i => frame.getLsbD i

/-- `sat(run + 1, 15)` (40_demodulator.md R127). -/
def nextRun (run : BitVec 4) : BitVec 4 := BitVec.ofNat 4 (min (run.toNat + 1) Config.runSat)

/-- The toggle is set or cleared (40_demodulator.md R124). -/
def setToggle (b : Bool) (s : State) : State := { s with toggle := b }

/-- The run counter goes up (40_demodulator.md R127). -/
def countRun (s : State) : State := { s with run := nextRun s.run }

/-- `run <- 1; last_pol <- pol` (40_demodulator.md R128). -/
def startRun (p : Polarity) (s : State) : State := { s with run := BitVec.ofNat 4 Config.runInit, lastPol := some p }

/-- What the just-completed run emits (40_demodulator.md R124 to R126): a short run with the toggle set pushes a `1`
and clears it, with the toggle clear only sets it; a long run pushes a `0`; a noise run does nothing. -/
def endRun (s : State) : State :=
  match runClass s.run with
  | .short => if s.toggle then setToggle false (pushBit true s) else setToggle true s
  | .long => pushBit false s
  | .noise => s

/-- The BiphaseBitDecoder on one observation (40_demodulator.md R120, R122, R127, R128). -/
def observePolarity (p : Polarity) (s : State) : State :=
  if s.lastPol = some p then countRun s else startRun p (endRun s)

/-- The record a segment closes with: `end_idx`, and `count = end_idx - seg_start + 1` in 32 bits (43_segment_aggregator.md
R194, R198, R201, R205; `srcid` and `rate` are those of the emitting step, 30_encoding.md R110). -/
def closingRecord (endIdx : Index) (s : State) : SegRecord where
  srcid := s.srcid
  rate := s.rate
  startTc := s.prevTc
  endTc := s.prevTc
  startIdx := s.segStart
  endIdx := endIdx
  count := endIdx - s.segStart + 1#32

/-- A segment begins: `open <- 1; prev_tc <- t; seg_start <- idx` (43_segment_aggregator.md R193, R194). -/
def beginSegment (t : Timecode) (idx : Index) (s : State) : State := { s with segOpen := true, prevTc := t, segStart := idx }

/-- `seen <- 1; last_idx <- idx` (43_segment_aggregator.md R191). -/
def noteIndex (idx : Index) (s : State) : State := { s with seen := true, lastIdx := idx }

/-- What an accepted observation does to the segment (43_segment_aggregator.md R191 to R194). -/
def extendSegment (t : Timecode) (idx : Index) (s : State) : State :=
  if t = Config.tcSentinel then s
  else if !s.segOpen then beginSegment t idx s
  else if t = s.prevTc then s
  else beginSegment t idx (emitSeg (closingRecord (idx - 1#32) s) s)

/-- `observe(t, idx)` (43_segment_aggregator.md R191, R195). -/
def observe (t : Timecode) (idx : Index) (s : State) : State :=
  if s.seen && decide (idx ≤ s.lastIdx) then raiseFault .order s
  else extendSegment t idx (noteIndex idx s)

/-- End of input at index `n`: the open segment is closed and emitted, the aggregator re-initialised
(43_segment_aggregator.md R198, R199, R204). -/
def closeInput (n : Index) (s : State) : State :=
  clearAggregator (if s.segOpen then emitSeg (closingRecord n s) s else s)

/-- The pins of this step are taken (30_encoding.md R116). -/
def withInputs (ps : List Pins) (s : State) : State := { s with inputs := ps }

/-- The pins of a step in which the host presents one command word. -/
def commandPins (w : CmdWord) : Pins := { rst := false, cmdValid := true, cmd := w }

/-- The host presents these words, one a step, before what was presented already. -/
def present (ws : List CmdWord) (s : State) : State := withInputs (ws.map commandPins ++ s.inputs) s

end Sys2Proof.Machine
end

