-- ==== Sys2Proof/Machine/Aggregator.lean ====
section
/-! DEFINITION. The meanings of OBS, OBSL, END and ENDAT (spec/43_segment_aggregator.md). -/

namespace Sys2Proof.Machine

/-- `OBS tc, idx` (43_segment_aggregator.md R190): the decimal check comes before the index check (60_exceptions.md R259). -/
def execObs (t : Timecode) (idx : Index) (s : State) : Host.Outcome State Fault Refusal :=
  .next (if isDecimal t then observe t idx s else raiseFault .badtc s)

/-- `OBSL idx` (43_segment_aggregator.md R196): an observation of the latch value before the step. -/
def execObsl (idx : Index) (s : State) : Host.Outcome State Fault Refusal := .next (observe s.tc idx s)

/-- `END` (43_segment_aggregator.md R198). -/
def execEnd (s : State) : Host.Outcome State Fault Refusal := .next (closeInput s.lastIdx s)

/-- `ENDAT n` (43_segment_aggregator.md R199). -/
def execEndat (n : Index) (s : State) : Host.Outcome State Fault Refusal :=
  .next (if s.seen && decide (n < s.lastIdx) then raiseFault .order s else closeInput n s)

end Sys2Proof.Machine
end

