-- ==== Sys2Proof/Machine/Control.lean ====
section
/-! DEFINITION. The meanings of NOP, SRST, RDREG and WRREG (spec/44_control.md). -/

namespace Sys2Proof.Machine

/-- `NOP` (44_control.md R220). -/
def execNop (s : State) : Host.Outcome State Fault Refusal := .next s

/-- `SRST` (44_control.md R222). -/
def execSrst (s : State) : Host.Outcome State Fault Refusal := .next (fullReset s)

/-- `RDREG reg` (44_control.md R224): always exactly one response. -/
def execRdreg (sel : Sel) (s : State) : Host.Outcome State Fault Refusal :=
  match regRead sel s with
  | some v => .next (emitRsp false v s)
  | none => .next (raiseFault .illreg (emitRsp true 0#32 s))

/-- `WRREG reg, value` (44_control.md R226). -/
def execWrreg (sel : Sel) (v : RegValue) (s : State) : Host.Outcome State Fault Refusal :=
  match regWrite sel v s with
  | some s' => .next s'
  | none => .next (raiseFault .illreg s)

end Sys2Proof.Machine
end

