-- ==== Sys2Proof/Machine/Demod.lean ====
section
/-! DEFINITION. The meanings of SAMPLE and NEWPASS (spec/40_demodulator.md). -/

namespace Sys2Proof.Machine

/-- `SAMPLE s0, s1` (40_demodulator.md R120). -/
def execSample (s0 s1 : Amplitude) (s : State) : Host.Outcome State Fault Refusal :=
  .next (observePolarity (classify s0 s1) s)

/-- `NEWPASS` (40_demodulator.md R130). -/
def execNewpass (s : State) : Host.Outcome State Fault Refusal := .next (clearAccumulator (clearDemod s))

end Sys2Proof.Machine
end

