-- ==== Sys2Proof/Machine/Dispatch.lean ====
section
/-! DEFINITION. One arm per command of spec/30_encoding.md R82. -/

namespace Sys2Proof.Machine

def exec (i : Instr) (s : State) : Host.Outcome State Fault Refusal :=
  match i with
  | .nop => Sys2Proof.Machine.execNop s
  | .sample s0 s1 => Sys2Proof.Machine.execSample s0 s1 s
  | .newpass => Sys2Proof.Machine.execNewpass s
  | .srst => Sys2Proof.Machine.execSrst s
  | .obs t idx => Sys2Proof.Machine.execObs t idx s
  | .obsl idx => Sys2Proof.Machine.execObsl idx s
  | .endInput => Sys2Proof.Machine.execEnd s
  | .endat n => Sys2Proof.Machine.execEndat n s
  | .rdreg sel => Sys2Proof.Machine.execRdreg sel s
  | .wrreg sel v => Sys2Proof.Machine.execWrreg sel v s

end Sys2Proof.Machine
end

