-- ==== Sys2Proof/Machine/Port.lean ====
section
/-! DEFINITION. The ports: what one step takes from the input pins and what the output signals carry
(spec/30_encoding.md R110, R116; spec/10_state.md R47, R48; spec/70_reset_and_hazards.md R280). -/

namespace Sys2Proof.Machine

/-- A command word is taken: the command it decodes to runs, and a reserved opcode raises ILLCMD (30_encoding.md R88,
60_exceptions.md R253). -/
def runCommand (w : CmdWord) (s : State) : Host.Outcome State Fault Refusal :=
  match decode w with
  | .instr i => exec i s
  | .reserved _ => .next (raiseFault .illcmd s)

/-- One step under the pins `p`: with `rst` asserted the state becomes the reset state and no command is accepted
(70_reset_and_hazards.md R280); otherwise a command is taken when `cmd_valid` says that one is presented. -/
def takePins (p : Pins) (s : State) : Host.Outcome State Fault Refusal :=
  if p.rst then .next (fullReset s)
  else if p.cmdValid then runCommand p.cmd s
  else .next s

/-- One step: the pins of this step are the oldest of `inputs`. With none left nothing is presented and nothing
changes (44_control.md R220; log entry 1). -/
def stepInputs (s : State) : Host.Outcome State Fault Refusal :=
  match s.inputs with
  | [] => .next s
  | p :: ps => takePins p (withInputs ps s)

/-- The 208-bit word of a segment record (30_encoding.md R110). -/
def SegRecord.pack (r : SegRecord) : BitVec 208 :=
  r.srcid ++ r.rate ++ r.startTc ++ r.endTc ++ r.startIdx ++ r.endIdx ++ r.count

/-- The output signals of 30_encoding.md R116 in one step. A strobe carries its value only in the step that emits it. -/
structure OutPins where
  rsp     : Option Response
  evt     : Option Event
  seg     : Option SegRecord
  tcQ     : Timecode
  syncedQ : Bool
  deriving DecidableEq, Repr

/-- `tc_q` always equals `tc` (10_state.md R48). -/
def tcQ (s : State) : Timecode := s.tc

/-- `synced_q` always equals `synced` (10_state.md R48). -/
def syncedQ (s : State) : Bool := s.synced

/-- The output signals of the step from `s` to `s'`: what was appended to the traces, and the continuous outputs after
the step (10_state.md R47, R48; one step appends at most one element to each trace, 60_exceptions.md R258). -/
def outPins (s s' : State) : OutPins where
  rsp := (s'.rspTrace.drop s.rspTrace.length).head?
  evt := (s'.evtTrace.drop s.evtTrace.length).head?
  seg := (s'.segTrace.drop s.segTrace.length).head?
  tcQ := tcQ s'
  syncedQ := syncedQ s'

end Sys2Proof.Machine
end

