-- ==== Sys2Proof/Machine/Step.lean ====
section
/-! DEFINITION. The step of the machine, and how one command word is presented to it. -/

namespace Sys2Proof.Machine

/-- One step (spec/00_scope.md R8, R9): total, one command at most. -/
def step (s : State) : Host.Outcome State Fault Refusal := stepInputs s

/-- `s` with the command word presented as the very next one (log entry 5): step takes it and runs exactly it. -/
def State.withFetchWord (s : State) (nbits w : Nat) : State := present [tableWord nbits w] s

end Sys2Proof.Machine
end

