-- ==== Sys2Proof/Machine/HostSide.lean ====
section
/-! DEFINITION. What the spec gives the host: framing of byte buffers, the pseudo-instructions and the biphase-mark
line code (spec/20_memory.md R62, R66; spec/30_encoding.md R91, R103; spec/44_control.md R228), and a command list run
in order (spec/20_memory.md R71). -/

namespace Sys2Proof.Machine

/-- The commands of a byte buffer: four bytes a pair, little-endian, a trailing incomplete pair dropped
(20_memory.md R62, R66). -/
def frameBuffer : List Byte → List Instr
  | b0 :: b1 :: b2 :: b3 :: rest => .sample (b1 ++ b0) (b3 ++ b2) :: frameBuffer rest
  | _ => []

/-- The other polarity. -/
def Polarity.flip : Polarity → Polarity
  | .pos => .neg
  | .neg => .pos

/-- The `SAMPLE` of one observation of a polarity: 8192, 8192 or -8192, -8192 (30_encoding.md R91). -/
def sampleOf : Polarity → Instr
  | .pos => .sample 0x2000#16 0x2000#16
  | .neg => .sample 0xE000#16 0xE000#16

/-- `RUN p, n` (30_encoding.md R91). -/
def runOf (p : Polarity) (n : Nat) : List Instr := List.replicate n (sampleOf p)

/-- The runs that carry a bit string in biphase-mark code with half-cell `h`, starting at polarity `p`
(30_encoding.md R103). -/
def bmcRuns (h : Nat) : List Bool → Polarity → List (Polarity × Nat)
  | [], _ => []
  | false :: bits, p => (p, 2 * h) :: bmcRuns h bits (Polarity.flip p)
  | true :: bits, p => (p, h) :: (Polarity.flip p, h) :: bmcRuns h bits p

/-- The polarity of the run that follows the expansion (30_encoding.md R103). -/
def bmcNext : List Bool → Polarity → Polarity
  | [], p => p
  | false :: bits, p => bmcNext bits (Polarity.flip p)
  | true :: bits, p => bmcNext bits p

/-- The pseudo-instructions of 30_encoding.md R91, and a plain command. -/
inductive Pseudo where
  | plain (i : Instr)
  | rdtc
  | rdst
  | rdctl
  | wrctl (v : RegValue)
  | permissive
  | strictmode
  | run (p : Polarity) (n : Nat)
  | silence (n : Nat)
  | obsn (t : Timecode) (first last : Nat)
  | bmc (bits : List Bool) (h : Nat) (p : Polarity)
  deriving DecidableEq, Repr

/-- The expansion of each (30_encoding.md R91, 44_control.md R228). -/
def Pseudo.expand : Pseudo → List Instr
  | .plain i => [i]
  | .rdtc => [.rdreg 0x02#8]
  | .rdst => [.rdreg 0x01#8]
  | .rdctl => [.rdreg 0x00#8]
  | .wrctl v => [.wrreg 0x00#8 v]
  | .permissive => [.wrreg 0x00#8 0x00002700#32]
  | .strictmode => [.wrreg 0x00#8 0x00002701#32]
  | .run p n => runOf p n
  | .silence n => List.replicate n (.sample 0#16 0#16)
  | .obsn t first last => (List.range (last + 1 - first)).map fun k => .obs t (BitVec.ofNat 32 (first + k))
  | .bmc bits h p => (bmcRuns h bits p).flatMap fun r => runOf r.1 r.2

/-- A list of commands run in the order presented (20_memory.md R71): each sees the whole effect of those before it. -/
def execList : List Instr → State → Host.Outcome State Fault Refusal
  | [], s => .next s
  | i :: is, s =>
    match exec i s with
    | .next s' => execList is s'
    | .fault r => .fault r
    | .refused r => .refused r

end Sys2Proof.Machine
end

