-- ==== Sys2Proof/Machine/TextForm.lean ====
section
/-! DEFINITION. The text form of a command stream (spec/30_encoding.md R90, R91): one command or pseudo-instruction a
line, operands separated by commas, a `;` starting a comment. What R90 leaves open of the spelling is log entry 12. -/

namespace Sys2Proof.Machine

/-- A space or a tab. -/
def isBlank (c : Char) : Bool := c.toNat == 32 || c.toNat == 9

/-- A line without its comment. -/
def stripComment : List Char → List Char
  | [] => []
  | c :: cs => if c.toNat = 59 then [] else c :: stripComment cs

/-- A word without the blanks around it. -/
def trimBlanks (cs : List Char) : List Char := ((cs.dropWhile isBlank).reverse.dropWhile isBlank).reverse

/-- The words between commas. -/
def splitCommas : List Char → List (List Char)
  | [] => [[]]
  | c :: cs =>
    if c.toNat = 44 then [] :: splitCommas cs
    else
      match splitCommas cs with
      | [] => [[c]]
      | w :: ws => (c :: w) :: ws

/-- The operands of a command: none when nothing follows the mnemonic. -/
def operandWords (cs : List Char) : List (List Char) :=
  match trimBlanks cs with
  | [] => []
  | ds => (splitCommas ds).map trimBlanks

/-- The value of a decimal digit. -/
def decDigit (c : Char) : Option Nat := if 48 ≤ c.toNat ∧ c.toNat ≤ 57 then some (c.toNat - 48) else none

/-- The value of a hexadecimal digit, either case. -/
def hexDigit (c : Char) : Option Nat :=
  if 48 ≤ c.toNat ∧ c.toNat ≤ 57 then some (c.toNat - 48)
  else if 65 ≤ c.toNat ∧ c.toNat ≤ 70 then some (c.toNat - 55)
  else if 97 ≤ c.toNat ∧ c.toNat ≤ 102 then some (c.toNat - 87)
  else none

/-- The number a string of digits writes, most significant first, in a base. -/
def digitsFrom (digit : Char → Option Nat) (base : Nat) : Nat → List Char → Option Nat
  | acc, [] => some acc
  | acc, c :: cs =>
    match digit c with
    | some d => digitsFrom digit base (acc * base + d) cs
    | none => none

/-- An unsigned decimal number, at least one digit. -/
def parseDec (cs : List Char) : Option Nat :=
  match cs with
  | [] => none
  | _ => digitsFrom decDigit 10 0 cs

/-- A hexadecimal number with `0x`, at least one digit: its value and its number of digits. -/
def parseHex (cs : List Char) : Option (Nat × Nat) :=
  match cs with
  | '0' :: 'x' :: d :: ds => (digitsFrom hexDigit 16 0 (d :: ds)).map fun v => (v, ds.length + 1)
  | _ => none

/-- An amplitude: a signed decimal number in -32768..32767 or a 4-digit hexadecimal number with `0x` (30_encoding.md R90). -/
def parseAmplitude (cs : List Char) : Option Amplitude :=
  match parseHex cs with
  | some (v, n) => if n = 4 then some (BitVec.ofNat 16 v) else none
  | none =>
    match cs with
    | '-' :: ds => (parseDec ds).bind fun v => if v ≤ 32768 then some (BitVec.ofInt 16 (-(v : Int))) else none
    | _ => (parseDec cs).bind fun v => if v ≤ 32767 then some (BitVec.ofNat 16 v) else none

/-- A frame index: an unsigned decimal number in 0..4294967295 (30_encoding.md R90). -/
def parseIndex (cs : List Char) : Option Index :=
  (parseDec cs).bind fun v => if v ≤ 4294967295 then some (BitVec.ofNat 32 v) else none

/-- A register value: hexadecimal with `0x` or decimal (30_encoding.md R90). -/
def parseValue (cs : List Char) : Option RegValue :=
  match parseHex cs with
  | some (v, _) => if v ≤ 4294967295 then some (BitVec.ofNat 32 v) else none
  | none => parseIndex cs

/-- The double quotes around a timecode are optional (30_encoding.md R90). -/
def stripQuotes (cs : List Char) : List Char :=
  match cs with
  | '"' :: ds => if ds.getLast? = some '"' then ds.dropLast else cs
  | _ => cs

/-- A timecode `HH:MM:SS:FF`, eight decimal digits (30_encoding.md R90, R107). -/
def parseTimecode (cs : List Char) : Option Timecode :=
  match stripQuotes cs with
  | [h1, h0, ':', m1, m0, ':', s1, s0, ':', f1, f0] =>
    match [h1, h0, m1, m0, s1, s0, f1, f0].mapM decDigit with
    | some [a, b, c, d, e, f, g, h] => some (packDigits a b c d e f g h)
    | _ => none
  | _ => none

/-- A register: its name or its selector in hexadecimal (30_encoding.md R90, 10_state.md R38). -/
def parseReg (cs : List Char) : Option Sel :=
  if cs = ['C', 'T', 'R', 'L'] then some 0x00#8
  else if cs = ['S', 'T', 'A', 'T', 'U', 'S'] then some 0x01#8
  else if cs = ['T', 'C'] then some 0x02#8
  else if cs = ['U', 'B', 'I', 'T', 'S'] then some 0x03#8
  else if cs = ['F', 'L', 'A', 'G', 'S'] then some 0x04#8
  else if cs = ['S', 'R', 'C', 'I', 'D'] then some 0x05#8
  else if cs = ['R', 'A', 'T', 'E'] then some 0x06#8
  else (parseHex cs).bind fun v => if v.1 ≤ 255 then some (BitVec.ofNat 8 v.1) else none

/-- The starting polarity of a run, `P` or `N` (30_encoding.md R91). -/
def parsePolarity (cs : List Char) : Option Polarity :=
  if cs = ['P'] then some .pos else if cs = ['N'] then some .neg else none

/-- A bit string in arrival order; spaces inside are for reading only (95_test_vectors.md, conventions). -/
def parseBits : List Char → Option (List Bool)
  | [] => some []
  | c :: cs =>
    if isBlank c then parseBits cs
    else if c.toNat = 48 then (parseBits cs).map fun bs => false :: bs
    else if c.toNat = 49 then (parseBits cs).map fun bs => true :: bs
    else none

/-- A command with no operand. -/
def parse0 (p : Pseudo) (ops : List (List Char)) : Option Pseudo :=
  match ops with
  | [] => some p
  | _ => none

/-- A command with one operand. -/
def parse1 {α : Type} (pa : List Char → Option α) (mk : α → Pseudo) (ops : List (List Char)) : Option Pseudo :=
  match ops with
  | [x] => (pa x).map mk
  | _ => none

/-- A command with two operands. -/
def parse2 {α β : Type} (pa : List Char → Option α) (pb : List Char → Option β) (mk : α → β → Pseudo)
    (ops : List (List Char)) : Option Pseudo :=
  match ops with
  | [x, y] => (pa x).bind fun a => (pb y).map (mk a)
  | _ => none

/-- A command with three operands. -/
def parse3 {α β γ : Type} (pa : List Char → Option α) (pb : List Char → Option β) (pc : List Char → Option γ)
    (mk : α → β → γ → Pseudo) (ops : List (List Char)) : Option Pseudo :=
  match ops with
  | [x, y, z] => (pa x).bind fun a => (pb y).bind fun b => (pc z).map (mk a b)
  | _ => none

/-- What a mnemonic with its operands says (30_encoding.md R90, R91). -/
def parseCommand (m : List Char) (ops : List (List Char)) : Option Pseudo :=
  if m = ['N', 'O', 'P'] then parse0 (.plain .nop) ops
  else if m = ['S', 'A', 'M', 'P', 'L', 'E'] then parse2 parseAmplitude parseAmplitude (fun x y => .plain (.sample x y)) ops
  else if m = ['N', 'E', 'W', 'P', 'A', 'S', 'S'] then parse0 (.plain .newpass) ops
  else if m = ['S', 'R', 'S', 'T'] then parse0 (.plain .srst) ops
  else if m = ['O', 'B', 'S'] then parse2 parseTimecode parseIndex (fun t i => .plain (.obs t i)) ops
  else if m = ['O', 'B', 'S', 'L'] then parse1 parseIndex (fun i => .plain (.obsl i)) ops
  else if m = ['E', 'N', 'D'] then parse0 (.plain .endInput) ops
  else if m = ['E', 'N', 'D', 'A', 'T'] then parse1 parseIndex (fun n => .plain (.endat n)) ops
  else if m = ['R', 'D', 'R', 'E', 'G'] then parse1 parseReg (fun r => .plain (.rdreg r)) ops
  else if m = ['W', 'R', 'R', 'E', 'G'] then parse2 parseReg parseValue (fun r v => .plain (.wrreg r v)) ops
  else if m = ['R', 'D', 'T', 'C'] then parse0 .rdtc ops
  else if m = ['R', 'D', 'S', 'T'] then parse0 .rdst ops
  else if m = ['R', 'D', 'C', 'T', 'L'] then parse0 .rdctl ops
  else if m = ['W', 'R', 'C', 'T', 'L'] then parse1 parseValue .wrctl ops
  else if m = ['P', 'E', 'R', 'M', 'I', 'S', 'S', 'I', 'V', 'E'] then parse0 .permissive ops
  else if m = ['S', 'T', 'R', 'I', 'C', 'T', 'M', 'O', 'D', 'E'] then parse0 .strictmode ops
  else if m = ['R', 'U', 'N'] then parse2 parsePolarity parseDec .run ops
  else if m = ['S', 'I', 'L', 'E', 'N', 'C', 'E'] then parse1 parseDec .silence ops
  else if m = ['O', 'B', 'S', 'N'] then
    parse3 parseTimecode parseIndex parseIndex (fun t i j => .obsn t i.toNat j.toNat) ops
  else if m = ['B', 'M', 'C'] then parse3 parseBits parseDec parsePolarity .bmc ops
  else none

/-- The commands one line assembles to: none of them for an empty line, no answer for a line that is not of the text
form (30_encoding.md R90). -/
def assembleLine (line : List Char) : Option (List Instr) :=
  let cs := (stripComment line).dropWhile isBlank
  match cs with
  | [] => some []
  | _ => (parseCommand (cs.takeWhile fun c => !isBlank c) (operandWords (cs.dropWhile fun c => !isBlank c))).map Pseudo.expand

/-- A command stream, line by line (30_encoding.md R90). -/
def assemble : List (List Char) → Option (List Instr)
  | [] => some []
  | l :: ls => (assembleLine l).bind fun is => (assemble ls).map fun js => is ++ js

end Sys2Proof.Machine
end

