-- ==== Sys2Proof/Machine/Reference.lean ====
section
/-! DEFINITION. The unbounded decoder the source describes, to which the block's bounded one is compared: a run counter
without bound and a growing bit sequence without bound (spec/10_state.md R22, R51, R52; spec/41_frame_sync.md R140). -/

namespace Sys2Proof.Machine

/-- The source's decoder fields. `acc` is its bit sequence `A`, kept newest bit first, so that its trailing `n` bits in
arrival order are `(acc.take n).reverse`. -/
structure TceDecoder where
  lastPol : Option Polarity
  run     : Nat
  toggle  : Bool
  acc     : List Bool
  deriving DecidableEq, Repr

/-- The decoder at the start of a pass. -/
def TceDecoder.start : TceDecoder := { lastPol := none, run := 1, toggle := true, acc := [] }

/-- The 80-bit frame of a list of bits in arrival order, `frame[i]` the `i`-th of them (00_scope.md R11). -/
def frameOfBits (bits : List Bool) : Frame := BitVec.ofNat 80 (bitsValue bits)

/-- The frame cut after the append of a bit, if one is: the trailing 16 bits are the sync word and the total length
exceeds 80; the frame is the trailing 80 bits (41_frame_sync.md R140). -/
def tceCut (acc : List Bool) : Option Frame :=
  if 16 ≤ acc.length ∧ (acc.take 16).reverse = Config.syncArrival ∧ 80 < acc.length then
    some (frameOfBits (acc.take 80).reverse)
  else none

/-- The append of one bit (41_frame_sync.md R140): the sequence afterwards, cleared by a cut, and the frame cut. -/
def tcePush (b : Bool) (acc : List Bool) : List Bool × Option Frame :=
  match tceCut (b :: acc) with
  | some f => ([], some f)
  | none => (b :: acc, none)

/-- A bit into the decoder's sequence. -/
def TceDecoder.push (b : Bool) (d : TceDecoder) : TceDecoder × Option Frame :=
  ({ d with acc := (tcePush b d.acc).1 }, (tcePush b d.acc).2)

/-- What a completed run emits, on the unbounded run length (40_demodulator.md R123 to R126). -/
def TceDecoder.endRun (d : TceDecoder) : TceDecoder × Option Frame :=
  if 7 ≤ d.run ∧ d.run ≤ 14 then
    (if d.toggle then (TceDecoder.push true { d with toggle := false }) else ({ d with toggle := true }, none))
  else if 14 < d.run then TceDecoder.push false d
  else (d, none)

/-- One polarity observation (40_demodulator.md R122, R127, R128) with an unbounded run counter. -/
def TceDecoder.observe (p : Polarity) (d : TceDecoder) : TceDecoder × Option Frame :=
  if d.lastPol = some p then ({ d with run := d.run + 1 }, none)
  else ({ (TceDecoder.endRun d).1 with run := 1, lastPol := some p }, (TceDecoder.endRun d).2)

/-- The block's accumulator (`sr`, `len`) stands for the bit sequence `acc` (10_state.md R51): `len = min(|A|, 81)` and
`sr[79-j]` is the `j`-th newest bit for `j` below `min(|A|, 80)`. -/
def accumulatorIs (acc : List Bool) (s : State) : Prop :=
  s.len.toNat = min acc.length 81 ∧ ∀ j, (h : j < acc.length) → j < 80 → s.sr.getLsbD (79 - j) = acc[j]

/-- The block's decoder fields stand for the source's (10_state.md R22, R51, R52). -/
def decoderIs (d : TceDecoder) (s : State) : Prop :=
  s.lastPol = d.lastPol ∧ s.run.toNat = min d.run 15 ∧ s.toggle = d.toggle ∧ accumulatorIs d.acc s

end Sys2Proof.Machine
end

