-- ==== Sys2Proof/Safety.lean ====
section
/-! DEFINITION. What the claims call a safe state and a fault-free run: the invariants the spec states of the block
(spec/10_state.md R22 to R39; spec/42_frame_parser_latch.md R168, R177; spec/43_segment_aggregator.md R200 to R205). -/

namespace Sys2Proof.Machine

/-- The demodulator and the assembler: the run counter is at least 1 (R22), the length at most 81 (R25), and before the
first observation of a pass all five fields have their starting values (R21, 40_demodulator.md R130). -/
def decoderInv (s : State) : Prop :=
  1 ≤ s.run.toNat ∧ s.len.toNat ≤ 81 ∧
    (s.lastPol = none → s.run = 1#4 ∧ s.toggle = true ∧ s.sr = 0#80 ∧ s.len = 0#7)

/-- The latch: `tc` is decimal (R26, 42_frame_parser_latch.md R168), and an unsynced latch holds the default
(42_frame_parser_latch.md R177) and has passed nothing through (R28, R29). -/
def latchInv (s : State) : Prop :=
  isDecimal s.tc = true ∧ (s.synced = false → s.tc = 0#32 ∧ s.ubits = 0#32 ∧ s.flags = 0#6)

/-- The aggregator: an open segment has been observed, does not start after the last index (R34) and has a decimal
timecode that is not the sentinel (R31, 43_segment_aggregator.md R200); with nothing open, or nothing seen, the fields
hold their reset values (43_segment_aggregator.md R204). -/
def aggregatorInv (s : State) : Prop :=
  (s.segOpen = true → s.seen = true ∧ s.segStart ≤ s.lastIdx ∧ s.prevTc ≠ 0#32 ∧ isDecimal s.prevTc = true) ∧
    (s.segOpen = false → s.prevTc = 0#32 ∧ s.segStart = 0#32) ∧ (s.seen = false → s.lastIdx = 0#32)

/-- Whether the sticky bit of a fault is set (R39). -/
def faultBit (c : FaultCode) (s : State) : Bool :=
  match c with
  | .illcmd => s.fIllcmd
  | .illreg => s.fIllreg
  | .badtc => s.fBadtc
  | .order => s.fOrder

/-- `fcode` is 0 exactly when no fault bit is set, and otherwise the code of a fault whose bit is set (R39). -/
def faultInv (s : State) : Prop :=
  (s.fcode = 0#4 ∧ ∀ c, faultBit c s = false) ∨ ∃ c, s.fcode = FaultCode.code c ∧ faultBit c s = true

/-- A record the block may emit: one timecode, which is decimal and not the sentinel, and a range that does not end
before it starts, with its count in 32 bits (43_segment_aggregator.md R200, R201, R205). -/
def recordOk (r : SegRecord) : Prop :=
  r.startTc = r.endTc ∧ r.startTc ≠ 0#32 ∧ isDecimal r.startTc = true ∧ r.startIdx ≤ r.endIdx ∧
    r.count = BitVec.ofNat 32 (r.endIdx.toNat - r.startIdx.toNat + 1)

/-- Segment ranges that follow one another without gap or overlap (43_segment_aggregator.md R203). -/
def contiguous : List SegRecord → Prop
  | [] => True
  | [_] => True
  | r :: q :: rest => q.startIdx = r.endIdx + 1#32 ∧ contiguous (q :: rest)

/-- Every record emitted so far is one the block may emit. -/
def recordsInv (s : State) : Prop := ∀ r ∈ s.segTrace, recordOk r

/-- The whole invariant of the block. -/
def State.Inv (s : State) : Prop :=
  decoderInv s ∧ latchInv s ∧ aggregatorInv s ∧ faultInv s ∧ recordsInv s

/-- No fault bit is set, `STATUS[7:4] = 0`: the premise 60_exceptions.md R263 asks claims about outputs to take. -/
def faultFree (s : State) : Prop := ∀ c, faultBit c s = false

end Sys2Proof.Machine
end

