-- ==== Sys2Proof/Certificates/Slice0/Obligations.lean ====
section
/-! DEFINITION. The statements for the provers. Each docstring names the rule of the spec it formalises; rules are
cited by file in OBLIGATIONS.json. -/

open Sys2Proof Sys2Proof.Machine

/-! ## Encoding, decoding, the port -/

/-- R82, vectors V-E1 to V-E18: one written word per command decodes to it, junk in ignored bits changes nothing, and a
reserved opcode is named. -/
def Obligations.SpecWordsDecode : Prop :=
  decode 0x000000000000000000#72 = .instr .nop ∧
  decode 0x0100000000FFFF0001#72 = .instr (.sample 0x0001#16 0xFFFF#16) ∧
  decode 0x01DEADBEEF20002000#72 = .instr (.sample 0x2000#16 0x2000#16) ∧
  decode 0x020000000000000000#72 = .instr .newpass ∧
  decode 0x030000000000000000#72 = .instr .srst ∧
  decode 0x10010000050000000A#72 = .instr (.obs 0x01000005#32 10#32) ∧
  decode 0x110000000000000001#72 = .instr (.obsl 1#32) ∧
  decode 0x120000000000000000#72 = .instr .endInput ∧
  decode 0x130000000000000013#72 = .instr (.endat 19#32) ∧
  decode 0x20ABCDEF0200000000#72 = .instr (.rdreg 0x02#8) ∧
  decode 0x2100000005C0FFEE01#72 = .instr (.wrreg 0x05#8 0xC0FFEE01#32) ∧
  decode 0x040000000000000000#72 = .reserved 0x04#8 ∧
  decode 0xFFFFFFFFFFFFFFFFFF#72 = .reserved 0xFF#8

/-- R82 (with R80, R84 to R87): the opcode alone selects the command, and each operand is the slice the table gives it,
numbered within the whole word; every other opcode is reserved. -/
def Obligations.OpcodeMapIsDecoded : Prop :=
  ∀ w : CmdWord,
    (w.extractLsb' 64 8 = 0x00#8 → decode w = .instr .nop) ∧
    (w.extractLsb' 64 8 = 0x01#8 → decode w = .instr (.sample (w.extractLsb' 0 16) (w.extractLsb' 16 16))) ∧
    (w.extractLsb' 64 8 = 0x02#8 → decode w = .instr .newpass) ∧
    (w.extractLsb' 64 8 = 0x03#8 → decode w = .instr .srst) ∧
    (w.extractLsb' 64 8 = 0x10#8 → decode w = .instr (.obs (w.extractLsb' 32 32) (w.extractLsb' 0 32))) ∧
    (w.extractLsb' 64 8 = 0x11#8 → decode w = .instr (.obsl (w.extractLsb' 0 32))) ∧
    (w.extractLsb' 64 8 = 0x12#8 → decode w = .instr .endInput) ∧
    (w.extractLsb' 64 8 = 0x13#8 → decode w = .instr (.endat (w.extractLsb' 0 32))) ∧
    (w.extractLsb' 64 8 = 0x20#8 → decode w = .instr (.rdreg (w.extractLsb' 32 8))) ∧
    (w.extractLsb' 64 8 = 0x21#8 → decode w = .instr (.wrreg (w.extractLsb' 32 8) (w.extractLsb' 0 32))) ∧
    ((4 ≤ w.toNat / 2 ^ 64 ∧ w.toNat / 2 ^ 64 ≤ 15) ∨ (20 ≤ w.toNat / 2 ^ 64 ∧ w.toNat / 2 ^ 64 ≤ 31) ∨
        34 ≤ w.toNat / 2 ^ 64 → decode w = .reserved (w.extractLsb' 64 8))

/-- Every command, at every operand value, is read back from its assembled word (R80 to R87, R90). -/
def Obligations.DecodeEncodeRoundTrip : Prop := ∀ i : Instr, decode (encode i) = .instr i

/-- The other direction (R81, R90): a word that decodes to `i` is the assembled word of `i` exactly when all its ignored
bits are zero, and no assembled word has an ignored bit set. -/
def Obligations.EncodeInvertsDecodeOnCanonicalWords : Prop :=
  (∀ (w : CmdWord) (i : Instr), decode w = .instr i → (encode i = w ↔ canonicalWord w = true)) ∧
  ∀ i : Instr, canonicalWord (encode i) = true

/-- R81: two words that agree on the bits a command uses decode alike, whatever their other bits hold; and whether a word
is a command at all depends on its opcode alone. -/
def Obligations.IgnoredBitsHaveNoEffect : Prop :=
  (∀ (w w' : CmdWord) (i : Instr), decode w = .instr i → w &&& i.usedBits = w' &&& i.usedBits → decode w' = .instr i) ∧
  ∀ (w w' : CmdWord) (op : BitVec 8), CmdWord.op w = CmdWord.op w' → decode w = .reserved op → decode w' = .reserved op

/-- The model's port (log entries 1 and 5; 20_memory.md section 5): the word presented in a step is decoded and its command
run on the state from which the pins of the step are taken; a reserved opcode raises ILLCMD there; a word placed by
`withFetchWord` is run by the very next step. -/
def Obligations.StepRunsDecodedCommand : Prop :=
  (∀ (s : State) (p : Pins) (ps : List Pins), s.inputs = p :: ps → p.rst = false → p.cmdValid = true →
    (∀ i : Instr, decode p.cmd = .instr i → step s = exec i { s with inputs := ps }) ∧
    (∀ op : BitVec 8, decode p.cmd = .reserved op → step s = .next (raiseFault .illcmd { s with inputs := ps }))) ∧
  ∀ (s : State) (i : Instr) (w : Nat), decodeTableWord 72 w = some i → step (s.withFetchWord 72 w) = exec i s

/-- R116, R280, over the model's list of pins (log entries 1 and 3): with `rst` asserted the state becomes the reset state and the command presented is not accepted; it is
the very state `SRST` leaves. The traces are kept (R47). -/
def Obligations.ResetPinActsAsSrst : Prop :=
  ∀ (s : State) (p : Pins) (ps : List Pins), s.inputs = p :: ps → p.rst = true →
    step s = .next { State.reset with inputs := ps, rspTrace := s.rspTrace, evtTrace := s.evtTrace, segTrace := s.segTrace } ∧
    step s = exec .srst { s with inputs := ps }

/-- R220, R280 and log entry 1, the model's choice: a step in which no command is presented changes nothing but the pins
still to be read. -/
def Obligations.NothingPresentedChangesNothing : Prop :=
  (∀ s : State, s.inputs = [] → step s = .next s) ∧
  ∀ (s : State) (p : Pins) (ps : List Pins), s.inputs = p :: ps → p.rst = false → p.cmdValid = false →
    step s = .next { s with inputs := ps }

/-- R253 (and R88): a word whose opcode is not one of the ten raises ILLCMD whatever its operands, and does nothing else;
the example of R253: from reset `STATUS` reads 0x00000110. -/
def Obligations.ReservedOpcodeRaisesIllcmd : Prop :=
  (∀ (s : State) (w : CmdWord),
    CmdWord.op w ∉ [0x00#8, 0x01#8, 0x02#8, 0x03#8, 0x10#8, 0x11#8, 0x12#8, 0x13#8, 0x20#8, 0x21#8] →
    runCommand w s = .next { s with
      fIllcmd := true
      fcode := if s.fcode = 0#4 then 1#4 else s.fcode
      evtTrace := s.evtTrace ++ [.fault .illcmd] }) ∧
  ∃ t, runCommand 0x040000000000000000#72 State.reset = .next t ∧ statusWord t = 0x00000110#32 ∧
    t.evtTrace.map (fun e => (e.code, e.data)) = [(3#4, 1#32)]

/-- R9: for every state and every one of the 2^72 words there is a next state, and the outputs are at most one response, at
most one event and at most one segment record, appended to the traces. -/
def Obligations.EveryWordHasANextState : Prop :=
  ∀ (w : CmdWord) (s : State), ∃ (t : State) (r : Option Response) (e : Option Event) (g : Option SegRecord),
    runCommand w s = .next t ∧ t.rspTrace = s.rspTrace ++ r.toList ∧ t.evtTrace = s.evtTrace ++ e.toList ∧
    t.segTrace = s.segTrace ++ g.toList

/-- R258: every step of the machine leads to a next state; a record and an event never come from the same step, and of
responses only the refused read comes with an event, its own ILLREG fault. -/
def Obligations.OutputsOfOneStepExclude : Prop :=
  ∀ s : State, ∃ t : State, step s = .next t ∧
    (t.segTrace ≠ s.segTrace → t.evtTrace = s.evtTrace ∧ t.rspTrace = s.rspTrace) ∧
    (t.rspTrace ≠ s.rspTrace → t.evtTrace = s.evtTrace ∨
      (t.rspTrace = s.rspTrace ++ [⟨true, 0#32⟩] ∧ t.evtTrace = s.evtTrace ++ [.fault .illreg]))

/-- R71, over the model's list of pins (log entry 1): a list of commands presented takes effect one at a time, in order. -/
def Obligations.PresentedCommandsRunInOrder : Prop :=
  ∀ (is : List Instr) (s : State), s.inputs = [] →
    Host.Core.run Sys2Proof.core is.length (present (is.map encode) s) = execList is s

/-! ## Control commands -/

/-- R220: `NOP` changes nothing and emits nothing; every word with opcode 0x00 is one, the all-zero word among them. -/
def Obligations.NopChangesNothing : Prop :=
  ∀ s : State, exec .nop s = .next s ∧ (∀ w : CmdWord, CmdWord.op w = 0x00#8 → runCommand w s = .next s) ∧
    runCommand 0x000000000000000000#72 s = .next s

/-- R222: every field of the block takes its reset value, an open segment is dropped without a record, nothing is emitted;
the traces keep what was emitted; opcode 0x03; the `rst` pin has the same effect; after it `STATUS` reads 0. -/
def Obligations.SrstResult : Prop :=
  ∀ s : State, (exec .srst s = .next {
    lastPol := none, run := 1#4, toggle := true, sr := 0#80, len := 0#7
    tc := 0x00000000#32, synced := false, ubits := 0#32, flags := 0#6
    segOpen := false, prevTc := 0x00000000#32, segStart := 0#32, lastIdx := 0#32, seen := false
    srcid := 0#32, rate := 0#16, strict := true, ffMax := 39#6
    malformed := false, fIllcmd := false, fIllreg := false, fBadtc := false, fOrder := false, fcode := 0#4
    inputs := s.inputs, rspTrace := s.rspTrace, evtTrace := s.evtTrace, segTrace := s.segTrace }) ∧
    (∀ w : CmdWord, CmdWord.op w = 0x03#8 → runCommand w s = exec .srst s) ∧
    (∀ p : Pins, p.rst = true → takePins p s = exec .srst s) ∧
    ∃ t, exec .srst s = .next t ∧ exec (.rdreg 0x01#8) t = .next { t with rspTrace := t.rspTrace ++ [⟨false, 0#32⟩] }

/-- R38, R54: what reset leaves, read through the seven registers. -/
def Obligations.ResetRegisterValues : Prop :=
  regRead 0x00#8 State.reset = some 0x00002701#32 ∧ regRead 0x01#8 State.reset = some 0x00000000#32 ∧
  regRead 0x02#8 State.reset = some 0x00000000#32 ∧ regRead 0x03#8 State.reset = some 0x00000000#32 ∧
  regRead 0x04#8 State.reset = some 0x00000000#32 ∧ regRead 0x05#8 State.reset = some 0x00000000#32 ∧
  regRead 0x06#8 State.reset = some 0x00000000#32

/-- R224: each mapped register answers with its value (written out bit by bit from the tables of 10_state.md R40 to R46) and
nothing else changes; an unmapped selector answers `Rsp(1, 0)` and raises ILLREG, and nothing else changes; opcode 0x20. -/
def Obligations.RdregResult : Prop :=
  ∀ s : State,
    (∃ v : RegValue, exec (.rdreg 0x00#8) s = .next { s with rspTrace := s.rspTrace ++ [⟨false, v⟩] } ∧
      v.getLsbD 0 = s.strict ∧ v.extractLsb' 1 7 = 0#7 ∧ v.extractLsb' 8 6 = s.ffMax ∧ v.extractLsb' 14 18 = 0#18) ∧
    (∃ v : RegValue, exec (.rdreg 0x01#8) s = .next { s with rspTrace := s.rspTrace ++ [⟨false, v⟩] } ∧
      v.getLsbD 0 = s.synced ∧ v.getLsbD 1 = s.segOpen ∧ v.getLsbD 2 = s.malformed ∧ v.getLsbD 3 = s.seen ∧
      v.getLsbD 4 = s.fIllcmd ∧ v.getLsbD 5 = s.fIllreg ∧ v.getLsbD 6 = s.fBadtc ∧ v.getLsbD 7 = s.fOrder ∧
      v.extractLsb' 8 4 = s.fcode ∧ v.extractLsb' 12 20 = 0#20) ∧
    exec (.rdreg 0x02#8) s = .next { s with rspTrace := s.rspTrace ++ [⟨false, s.tc⟩] } ∧
    exec (.rdreg 0x03#8) s = .next { s with rspTrace := s.rspTrace ++ [⟨false, s.ubits⟩] } ∧
    exec (.rdreg 0x04#8) s = .next { s with rspTrace := s.rspTrace ++ [⟨false, BitVec.ofNat 32 s.flags.toNat⟩] } ∧
    exec (.rdreg 0x05#8) s = .next { s with rspTrace := s.rspTrace ++ [⟨false, s.srcid⟩] } ∧
    exec (.rdreg 0x06#8) s = .next { s with rspTrace := s.rspTrace ++ [⟨false, BitVec.ofNat 32 s.rate.toNat⟩] } ∧
    (∀ sel : Sel, 0x06 < sel.toNat → exec (.rdreg sel) s = .next { s with
      rspTrace := s.rspTrace ++ [⟨true, 0#32⟩]
      fIllreg := true
      fcode := if s.fcode = 0#4 then 2#4 else s.fcode
      evtTrace := s.evtTrace ++ [.fault .illreg] }) ∧
    ∀ w : CmdWord, CmdWord.op w = 0x20#8 → runCommand w s = exec (.rdreg (w.extractLsb' 32 8)) s

/-- R226, R45, R46: a write of CTRL, SRCID or RATE changes that field and nothing else, and reads back with the reserved
positions cleared; a write of a read-only or unmapped selector raises ILLREG and changes nothing but the fault bits;
opcode 0x21. -/
def Obligations.WrregResult : Prop :=
  ∀ (s : State) (v : RegValue),
    (∃ t, exec (.wrreg 0x00#8 v) s = .next t ∧
      t = { s with strict := decide (v.toNat % 2 = 1), ffMax := BitVec.ofNat 6 (v.toNat / 256) } ∧
      regRead 0x00#8 t = some (v &&& 0x00003F01#32)) ∧
    (∃ t, exec (.wrreg 0x05#8 v) s = .next t ∧ t = { s with srcid := v } ∧ regRead 0x05#8 t = some v) ∧
    (∃ t, exec (.wrreg 0x06#8 v) s = .next t ∧ t = { s with rate := BitVec.ofNat 16 v.toNat } ∧
      regRead 0x06#8 t = some (v &&& 0x0000FFFF#32)) ∧
    (∀ sel : Sel, sel ∉ [0x00#8, 0x05#8, 0x06#8] → exec (.wrreg sel v) s = .next { s with
      fIllreg := true
      fcode := if s.fcode = 0#4 then 2#4 else s.fcode
      evtTrace := s.evtTrace ++ [.fault .illreg] }) ∧
    ∀ w : CmdWord, CmdWord.op w = 0x21#8 → runCommand w s = exec (.wrreg (w.extractLsb' 32 8) (w.extractLsb' 0 32)) s

/-- R228: the register pseudo-instructions are the commands the spec gives, with the words of R91; `PERMISSIVE` and
`STRICTMODE` also put `FF_MAX` back to 39. -/
def Obligations.PseudoInstructionWords : Prop :=
  (Pseudo.expand .rdtc).map encode = [0x200000000200000000#72] ∧
  (Pseudo.expand .rdst).map encode = [0x200000000100000000#72] ∧
  (Pseudo.expand .rdctl).map encode = [0x200000000000000000#72] ∧
  (Pseudo.expand .permissive).map encode = [0x210000000000002700#72] ∧
  (Pseudo.expand .strictmode).map encode = [0x210000000000002701#72] ∧
  (∀ v : RegValue, (Pseudo.expand (.wrctl v)).map encode = [BitVec.ofNat 72 (0x210000000000000000 + v.toNat)]) ∧
  ∀ s : State, execList (Pseudo.expand .permissive) s = .next { s with strict := false, ffMax := 39#6 } ∧
    execList (Pseudo.expand .strictmode) s = .next { s with strict := true, ffMax := 39#6 }

/-! ## The demodulator -/

/-- R130: `NEWPASS` initialises the demodulator and the assembler and touches nothing else; opcode 0x02. -/
def Obligations.NewpassResult : Prop :=
  ∀ s : State, (exec .newpass s = .next { s with lastPol := none, run := 1#4, toggle := true, sr := 0#80, len := 0#7 }) ∧
    ∀ w : CmdWord, CmdWord.op w = 0x02#8 → runCommand w s = exec .newpass s

/-- R121, R135: a pair is Negative exactly when the smaller of its two's-complement values is below zero, that is when
either sign bit is set; otherwise it is Positive. -/
def Obligations.ClassifyBySign : Prop :=
  ∀ s0 s1 : Amplitude,
    (classify s0 s1 = .neg ↔ min s0.toInt s1.toInt < 0) ∧
    (classify s0 s1 = .neg ↔ 0x8000 ≤ s0.toNat ∨ 0x8000 ≤ s1.toNat) ∧
    (classify s0 s1 = .pos ↔ s0.toNat < 0x8000 ∧ s1.toNat < 0x8000)

/-- R127: without a transition the run counter goes up, saturating at 15, and nothing else changes. -/
def Obligations.SampleWithoutTransition : Prop :=
  ∀ (s : State) (s0 s1 : Amplitude), s.lastPol = some (classify s0 s1) →
    exec (.sample s0 s1) s = .next { s with run := if s.run = 15#4 then 15#4 else s.run + 1#4 }

/-- R126, R128: a noise run (shorter than 7) emits no bit and leaves the toggle alone; the run restarts at 1 with the new
polarity. -/
def Obligations.SampleEndsNoiseRun : Prop :=
  ∀ (s : State) (s0 s1 : Amplitude), s.lastPol ≠ some (classify s0 s1) → s.run.toNat < 7 →
    exec (.sample s0 s1) s = .next { s with run := 1#4, lastPol := some (classify s0 s1) }

/-- R125, R128, R142: a long run pushes a `0`, and a push of `0` never cuts a frame; the toggle is left alone. -/
def Obligations.SampleEndsLongRun : Prop :=
  ∀ (s : State) (s0 s1 : Amplitude), s.lastPol ≠ some (classify s0 s1) → 14 < s.run.toNat →
    exec (.sample s0 s1) s = .next { s with
      sr := s.sr >>> 1
      len := BitVec.ofNat 7 (min (s.len.toNat + 1) 81)
      run := 1#4
      lastPol := some (classify s0 s1) }

/-- R124: a short run that ends with the toggle true pushes a `1` and clears the toggle, with the toggle false emits nothing
and sets it; the run restarts at 1 with the new polarity. -/
def Obligations.SampleEndsShortRun : Prop :=
  ∀ (s : State) (s0 s1 : Amplitude), s.lastPol ≠ some (classify s0 s1) → 7 ≤ s.run.toNat → s.run.toNat ≤ 14 →
    (s.toggle = true → exec (.sample s0 s1) s =
      .next { pushBit true s with toggle := false, run := 1#4, lastPol := some (classify s0 s1) }) ∧
    (s.toggle = false → exec (.sample s0 s1) s =
      .next { s with toggle := true, run := 1#4, lastPol := some (classify s0 s1) })

/-- R124, R128, R141, R143: a short run that ends with the toggle true pushes a `1` and clears the toggle; without a match
on more than 80 bits nothing is cut. -/
def Obligations.SampleShortRunPushesOne : Prop :=
  ∀ (s : State) (s0 s1 : Amplitude) (sr' : BitVec 80), sr' = s.sr >>> 1 ||| 0x80000000000000000000#80 →
    s.lastPol ≠ some (classify s0 s1) → 7 ≤ s.run.toNat → s.run.toNat ≤ 14 → s.toggle = true →
    ¬ (80 ≤ s.len.toNat ∧ sr'.extractLsb' 64 16 = 0xBFFC#16) →
    exec (.sample s0 s1) s = .next { s with
      sr := sr'
      len := BitVec.ofNat 7 (min (s.len.toNat + 1) 81)
      toggle := false
      run := 1#4
      lastPol := some (classify s0 s1) }

/-- R143, R144, R172, R175: the push that completes a sync word with more than 80 bits accumulated cuts the trailing 80
bits; in permissive mode, or when the range check holds, the latch takes the frame in the same step. -/
def Obligations.SampleLatchesCutFrame : Prop :=
  ∀ (s : State) (s0 s1 : Amplitude) (frame : Frame), frame = s.sr >>> 1 ||| 0x80000000000000000000#80 →
    s.lastPol ≠ some (classify s0 s1) → 7 ≤ s.run.toNat → s.run.toNat ≤ 14 → s.toggle = true →
    80 ≤ s.len.toNat → frame.extractLsb' 64 16 = 0xBFFC#16 →
    (s.strict = false ∨ frameValid (rawFields frame) s.ffMax = true) →
    exec (.sample s0 s1) s = .next { s with
      sr := 0#80
      len := 0#7
      toggle := false
      run := 1#4
      lastPol := some (classify s0 s1)
      tc := frameTimecode frame
      synced := true
      ubits := userBits frame
      flags := flagBits frame
      evtTrace := s.evtTrace ++ [.frame (frameTimecode frame)] }

/-- R171: in strict mode a cut frame that fails the range check sets the sticky bit and its event; the latch group keeps
its values and the accumulator stays cleared. -/
def Obligations.SampleRejectsCutFrame : Prop :=
  ∀ (s : State) (s0 s1 : Amplitude) (frame : Frame), frame = s.sr >>> 1 ||| 0x80000000000000000000#80 →
    s.lastPol ≠ some (classify s0 s1) → 7 ≤ s.run.toNat → s.run.toNat ≤ 14 → s.toggle = true →
    80 ≤ s.len.toNat → frame.extractLsb' 64 16 = 0xBFFC#16 →
    s.strict = true → frameValid (rawFields frame) s.ffMax = false →
    exec (.sample s0 s1) s = .next { s with
      sr := 0#80
      len := 0#7
      toggle := false
      run := 1#4
      lastPol := some (classify s0 s1)
      malformed := true
      evtTrace := s.evtTrace ++ [.malformed (frameTimecode frame)] }

/-- R120: what a `SAMPLE` may write. The aggregator, CTRL, SRCID, RATE, the fault bits, the responses and the records are
never touched. -/
def Obligations.SampleFrame : Prop :=
  ∀ (s : State) (s0 s1 : Amplitude), ∃ t, exec (.sample s0 s1) s = .next t ∧
    t = { s with
      lastPol := t.lastPol, run := t.run, toggle := t.toggle, sr := t.sr, len := t.len
      tc := t.tc, synced := t.synced, ubits := t.ubits, flags := t.flags
      malformed := t.malformed, evtTrace := t.evtTrace } ∧
    (t.evtTrace = s.evtTrace ∧ t.tc = s.tc ∧ t.synced = s.synced ∧ t.ubits = s.ubits ∧ t.flags = s.flags ∧
        t.malformed = s.malformed ∨
      t.evtTrace = s.evtTrace ++ [.frame t.tc] ∧ t.malformed = s.malformed ∨
      (∃ m, t.evtTrace = s.evtTrace ++ [.malformed m]) ∧ t.malformed = true ∧ t.tc = s.tc ∧ t.synced = s.synced ∧
        t.ubits = s.ubits ∧ t.flags = s.flags)

/-- R132: a pass in which the polarity never changes pushes no bit, whatever the amplitudes and however long it is: the
latch keeps its value and the run counter saturates. -/
def Obligations.ConstantPolarityDecodesNothing : Prop :=
  ∀ (p : Polarity) (pairs : List (Amplitude × Amplitude)) (s : State), s.lastPol = none → s.run = 1#4 → pairs ≠ [] →
    (∀ q ∈ pairs, classify q.1 q.2 = p) →
    execList (pairs.map fun q => .sample q.1 q.2) s =
      .next { s with lastPol := some p, run := BitVec.ofNat 4 (min pairs.length 15) }

/-- R103, R293: with half-cells of 8 to 14 observations a biphase-mark signal decodes cleanly: the samples of any bit
string, and one sample of the run that follows, push exactly those bits, in order, and leave the toggle in phase. -/
def Obligations.BiphaseMarkSignalDecodesCleanly : Prop :=
  ∀ (h : Nat) (bits : List Bool) (p : Polarity) (s : State), 8 ≤ h → h ≤ 14 →
    s.lastPol = none → s.run = 1#4 → s.toggle = true →
    execList (Pseudo.expand (.bmc bits h p) ++ [sampleOf (bmcNext bits p)]) s =
      .next { pushBits bits s with lastPol := some (bmcNext bits p), run := 1#4, toggle := true }

/-- R51, R52: the bounded decoder cannot be told from the source's unbounded one. If the block's fields stand for the
unbounded run counter and bit sequence, they do so after any `SAMPLE`, and the two cut the same frame: the rest of the
state is what parsing that frame leaves, or is untouched when none is cut. -/
def Obligations.BoundedDecoderRefinesUnbounded : Prop :=
  ∀ (s : State) (d : TceDecoder) (s0 s1 : Amplitude), decoderIs d s →
    ∃ t, exec (.sample s0 s1) s = .next t ∧ decoderIs (TceDecoder.observe (classify s0 s1) d).1 t ∧
      t = { (match (TceDecoder.observe (classify s0 s1) d).2 with
              | none => s
              | some frame => parseAndLatch frame s) with
            lastPol := t.lastPol, run := t.run, toggle := t.toggle, sr := t.sr, len := t.len }

/-! ## The assembler and the parser -/

/-- R147, R290: from a cleared accumulator no 80 bits or fewer are ever cut, a frame's own 80 bits included; one bit of
either value in front of a frame that ends in the sync word, and the frame is cut and parsed whole. -/
def Obligations.FirstFrameNeedsABitInFront : Prop :=
  ∀ s : State, s.sr = 0#80 → s.len = 0#7 →
    (∀ bits : List Bool, bits.length ≤ 80 →
      pushBits bits s = { s with sr := (pushBits bits s).sr, len := BitVec.ofNat 7 bits.length }) ∧
    ∀ (b : Bool) (frame : Frame), frame.extractLsb' 64 16 = 0xBFFC#16 →
      pushBits (b :: frameBits frame) s = parseAndLatch frame s

/-- R148, R291: of two frames that follow one another after a cut only the second reaches the parser, provided that no
copy of the sync word ends inside the second (R149). -/
def Obligations.EverySecondFrameIsCut : Prop :=
  ∀ (s : State) (f g : Frame), s.sr = 0#80 → s.len = 0#7 →
    f.extractLsb' 64 16 = 0xBFFC#16 → g.extractLsb' 64 16 = 0xBFFC#16 →
    (∀ k, 0 < k → k < 80 → ((frameBits f ++ frameBits g).drop (64 + k)).take 16 ≠ Config.syncArrival) →
    pushBits (frameBits f ++ frameBits g) s = parseAndLatch g s

/-- R162, R164, R165: the digits of a frame's timecode are the quotient and remainder by 10 of `tens*10+units` of each
field, at the positions of R100 (general knowledge G1, log entry 6); the values are in the ranges of R164; the sync word
is not looked at. -/
def Obligations.FrameTimecodeDigits : Prop :=
  ∀ (frame : Frame) (ff ss mm hh : Nat),
    ff = (frame.extractLsb' 8 2).toNat * 10 + (frame.extractLsb' 0 4).toNat →
    ss = (frame.extractLsb' 24 3).toNat * 10 + (frame.extractLsb' 16 4).toNat →
    mm = (frame.extractLsb' 40 3).toNat * 10 + (frame.extractLsb' 32 4).toNat →
    hh = (frame.extractLsb' 56 2).toNat * 10 + (frame.extractLsb' 48 4).toNat →
    tcDigit (frameTimecode frame) 7 = hh / 10 ∧ tcDigit (frameTimecode frame) 6 = hh % 10 ∧
    tcDigit (frameTimecode frame) 5 = mm / 10 ∧ tcDigit (frameTimecode frame) 4 = mm % 10 ∧
    tcDigit (frameTimecode frame) 3 = ss / 10 ∧ tcDigit (frameTimecode frame) 2 = ss % 10 ∧
    tcDigit (frameTimecode frame) 1 = ff / 10 ∧ tcDigit (frameTimecode frame) 0 = ff % 10 ∧
    ff ≤ 45 ∧ ss ≤ 85 ∧ mm ≤ 85 ∧ hh ≤ 45 ∧
    isDecimal (frameTimecode frame) = true ∧
    ∀ other : Frame, other.extractLsb' 0 64 = frame.extractLsb' 0 64 → frameTimecode other = frameTimecode frame

/-- R166, R167: the user bits and the flag bits of a frame, nibble by nibble and bit by bit. -/
def Obligations.UserBitsAndFlagBits : Prop :=
  ∀ frame : Frame,
    userBits frame = frame.extractLsb' 60 4 ++ frame.extractLsb' 52 4 ++ frame.extractLsb' 44 4 ++ frame.extractLsb' 36 4 ++
      frame.extractLsb' 28 4 ++ frame.extractLsb' 20 4 ++ frame.extractLsb' 12 4 ++ frame.extractLsb' 4 4 ∧
    flagBits frame = frame.extractLsb' 59 1 ++ frame.extractLsb' 58 1 ++ frame.extractLsb' 43 1 ++ frame.extractLsb' 27 1 ++
      frame.extractLsb' 11 1 ++ frame.extractLsb' 10 1

/-- R170: the range check of a cut frame, in the frame's own bits (positions: log entry 6); with the bound at 39 or more the frame-number test adds
nothing to the digit test. -/
def Obligations.RangeCheckOfAFrame : Prop :=
  ∀ (frame : Frame) (ffMax : BitVec 6) (fu su mu hu ft st mt ht : Nat),
    fu = (frame.extractLsb' 0 4).toNat → su = (frame.extractLsb' 16 4).toNat → mu = (frame.extractLsb' 32 4).toNat →
    hu = (frame.extractLsb' 48 4).toNat → ft = (frame.extractLsb' 8 2).toNat → st = (frame.extractLsb' 24 3).toNat →
    mt = (frame.extractLsb' 40 3).toNat → ht = (frame.extractLsb' 56 2).toNat →
    (frameValid (rawFields frame) ffMax = true ↔
      fu ≤ 9 ∧ su ≤ 9 ∧ mu ≤ 9 ∧ hu ≤ 9 ∧ st ≤ 5 ∧ mt ≤ 5 ∧ ht * 10 + hu ≤ 23 ∧ ft * 10 + fu ≤ ffMax.toNat) ∧
    (39 ≤ ffMax.toNat →
      (frameValid (rawFields frame) ffMax = true ↔
        fu ≤ 9 ∧ su ≤ 9 ∧ mu ≤ 9 ∧ hu ≤ 9 ∧ st ≤ 5 ∧ mt ≤ 5 ∧ ht * 10 + hu ≤ 23))

/-- R173: no command other than `SAMPLE` and `SRST` writes the latch, in any state; a `SAMPLE` writes it only in a step that
latches a frame. -/
def Obligations.OnlySampleAndResetWriteTheLatch : Prop :=
  (∀ (w : CmdWord) (s t : State), CmdWord.op w ≠ 0x01#8 → CmdWord.op w ≠ 0x03#8 → runCommand w s = .next t →
    t.tc = s.tc ∧ t.synced = s.synced ∧ t.ubits = s.ubits ∧ t.flags = s.flags) ∧
  ∀ (s t : State) (s0 s1 : Amplitude), exec (.sample s0 s1) s = .next t → t.evtTrace ≠ s.evtTrace ++ [.frame t.tc] →
    t.tc = s.tc ∧ t.synced = s.synced ∧ t.ubits = s.ubits ∧ t.flags = s.flags

/-! ## The aggregator -/

/-- R192: a sentinel observation, by `OBS` or from the latch, advances the last index and does nothing else. -/
def Obligations.SentinelObservationOnlyAdvancesTheIndex : Prop :=
  ∀ (s : State) (idx : Index), (s.seen = true → s.lastIdx < idx) →
    exec (.obs 0x00000000#32 idx) s = .next { s with seen := true, lastIdx := idx } ∧
    (s.tc = 0x00000000#32 → exec (.obsl idx) s = .next { s with seen := true, lastIdx := idx })

/-- R193: the first observation that is not the sentinel opens a segment at its index; `OBSL` does so with the latch
value. -/
def Obligations.FirstObservationOpensSegment : Prop :=
  ∀ (s : State) (t : Timecode) (idx : Index), (s.seen = true → s.lastIdx < idx) → t ≠ 0#32 → s.segOpen = false →
    (isDecimal t = true → exec (.obs t idx) s =
      .next { s with seen := true, lastIdx := idx, segOpen := true, prevTc := t, segStart := idx }) ∧
    (s.tc = t → exec (.obsl idx) s =
      .next { s with seen := true, lastIdx := idx, segOpen := true, prevTc := t, segStart := idx })

/-- R191, last branch: an observation of the open segment's timecode only advances the last index. -/
def Obligations.SameTimecodeExtendsSegment : Prop :=
  ∀ (s : State) (t : Timecode) (idx : Index), (s.seen = true → s.lastIdx < idx) → s.segOpen = true → t = s.prevTc →
    (isDecimal t = true → exec (.obs t idx) s = .next { s with seen := true, lastIdx := idx }) ∧
    (s.tc = t → exec (.obsl idx) s = .next { s with seen := true, lastIdx := idx })

/-- R194, R201, R110: a different timecode closes the open segment at the index before, emits its record with
`count = idx - seg_start` and the SRCID and RATE of this step, and opens the next segment. -/
def Obligations.ChangedTimecodeEmitsRecord : Prop :=
  ∀ (s : State) (t : Timecode) (idx : Index), (s.seen = true → s.lastIdx < idx) → t ≠ 0#32 → s.segOpen = true →
    t ≠ s.prevTc →
    ∀ u : State, u = { s with
        seen := true
        lastIdx := idx
        prevTc := t
        segStart := idx
        segTrace := s.segTrace ++ [{ srcid := s.srcid, rate := s.rate, startTc := s.prevTc, endTc := s.prevTc,
                                     startIdx := s.segStart, endIdx := idx - 1#32, count := idx - s.segStart }] } →
      (isDecimal t = true → exec (.obs t idx) s = .next u) ∧ (s.tc = t → exec (.obsl idx) s = .next u)

/-- R255 (and R259): an `OBS` whose timecode has a digit above 9 raises BADTC and changes nothing but the fault bits, whatever
its index: the digit check comes first; the example of R255, at every index. -/
def Obligations.NonDecimalObservationRaisesBadtc : Prop :=
  (∀ (s : State) (t : Timecode) (idx : Index), (∃ k, k < 8 ∧ 9 < t.toNat / 16 ^ k % 16) →
    exec (.obs t idx) s = .next { s with
      fBadtc := true
      fcode := if s.fcode = 0#4 then 3#4 else s.fcode
      evtTrace := s.evtTrace ++ [.fault .badtc] }) ∧
  ∀ idx : Index, ∃ t, exec (.obs 0x0A000000#32 idx) State.reset = .next t ∧ statusWord t = 0x00000340#32 ∧ t.seen = false

/-- R256 (and R195, R199): an observation whose index is not above the last one, and an `ENDAT` before it, raise ORDER and
change nothing but the fault bits; the example of R256. -/
def Obligations.StaleIndexRaisesOrder : Prop :=
  (∀ (s u : State), s.seen = true →
    u = { s with
      fOrder := true
      fcode := if s.fcode = 0#4 then 4#4 else s.fcode
      evtTrace := s.evtTrace ++ [.fault .order] } →
    (∀ (t : Timecode) (idx : Index), isDecimal t = true → idx ≤ s.lastIdx → exec (.obs t idx) s = .next u) ∧
    (∀ idx : Index, idx ≤ s.lastIdx → exec (.obsl idx) s = .next u) ∧
    ∀ n : Index, n < s.lastIdx → exec (.endat n) s = .next u) ∧
  ∃ t, execList [.obs 0x01000000#32 5#32, .obs 0x01000001#32 5#32] State.reset = .next t ∧ t.segOpen = true ∧
    t.segStart = 5#32 ∧ t.lastIdx = 5#32 ∧ t.segTrace = [] ∧ statusWord t = 0x0000048A#32

/-- R198: `END` closes the open segment at the last observed index, emits it, and puts the aggregator into its reset
state; with nothing open it emits nothing; opcode 0x12. -/
def Obligations.EndClosesAtTheLastIndex : Prop :=
  ∀ s : State,
    (s.segOpen = true → exec .endInput s = .next { s with
      segOpen := false, seen := false, prevTc := 0#32, segStart := 0#32, lastIdx := 0#32
      segTrace := s.segTrace ++ [{ srcid := s.srcid, rate := s.rate, startTc := s.prevTc, endTc := s.prevTc,
                                   startIdx := s.segStart, endIdx := s.lastIdx,
                                   count := s.lastIdx - s.segStart + 1#32 }] }) ∧
    (s.segOpen = false → exec .endInput s = .next { s with
      segOpen := false, seen := false, prevTc := 0#32, segStart := 0#32, lastIdx := 0#32 }) ∧
    ∀ w : CmdWord, CmdWord.op w = 0x12#8 → runCommand w s = exec .endInput s

/-- R199: `ENDAT n` does the same at index `n`, when `n` is not before the last observed index or nothing has been observed;
at the last observed index it is `END`; before it, ORDER and nothing else changes; opcode 0x13. -/
def Obligations.EndatClosesAtTheGivenIndex : Prop :=
  ∀ (s : State) (n : Index),
    ((s.seen = true → s.lastIdx ≤ n) →
      (s.segOpen = true → exec (.endat n) s = .next { s with
        segOpen := false, seen := false, prevTc := 0#32, segStart := 0#32, lastIdx := 0#32
        segTrace := s.segTrace ++ [{ srcid := s.srcid, rate := s.rate, startTc := s.prevTc, endTc := s.prevTc,
                                     startIdx := s.segStart, endIdx := n, count := n - s.segStart + 1#32 }] }) ∧
      (s.segOpen = false → exec (.endat n) s = .next { s with
        segOpen := false, seen := false, prevTc := 0#32, segStart := 0#32, lastIdx := 0#32 }) ∧
      (n = s.lastIdx → exec (.endat n) s = exec .endInput s)) ∧
    (s.seen = true → n < s.lastIdx → exec (.endat n) s = .next { s with
      fOrder := true
      fcode := if s.fcode = 0#4 then 4#4 else s.fcode
      evtTrace := s.evtTrace ++ [.fault .order] }) ∧
    ∀ w : CmdWord, CmdWord.op w = 0x13#8 → runCommand w s = exec (.endat (w.extractLsb' 0 32)) s

/-- R197, R202, R203: one source from an empty aggregator, its observations decimal and strictly increasing, then `END`:
no fault; the records are contiguous, each a possible one, the first starts at the first timecode that is not the
sentinel, the last ends at the last observed index, and every observation that is not the sentinel lies in a record of
its own timecode; with sentinels only there is no record. -/
def Obligations.SourceRecordsCoverItsObservations : Prop :=
  ∀ (obs : List (Timecode × Index)) (s : State), s.seen = false → s.segOpen = false →
    (∀ o ∈ obs, isDecimal o.1 = true) → obs.Pairwise (fun o o' => o.2 < o'.2) →
    ∃ (t : State) (recs : List SegRecord),
      execList ((obs.map fun o => .obs o.1 o.2) ++ [.endInput]) s = .next t ∧
      t = { s with segOpen := false, seen := false, prevTc := 0#32, segStart := 0#32, lastIdx := 0#32,
                   segTrace := s.segTrace ++ recs } ∧
      contiguous recs ∧ (∀ r ∈ recs, recordOk r) ∧
      (∀ o ∈ obs, o.1 ≠ 0#32 → ∃ r ∈ recs, r.startTc = o.1 ∧ r.startIdx ≤ o.2 ∧ o.2 ≤ r.endIdx) ∧
      (∀ r, recs.head? = some r → (obs.find? fun o => decide (o.1 ≠ 0#32)) = some (r.startTc, r.startIdx)) ∧
      (∀ r, recs.getLast? = some r → obs.getLast?.map Prod.snd = some r.endIdx)

/-! ## Faults and invariants -/

/-- R250: a taken word's event is `FAULT c` exactly in the cases of the table; then the fault's bit of `STATUS` (bit 3 plus
its code) is set, `FCODE` is its code if it was 0, the event's data is the code, and a refused `RDREG` answers `Rsp(1, 0)`. -/
def Obligations.WhichCommandsFault : Prop :=
  (FaultCode.code .illcmd = 1#4 ∧ FaultCode.code .illreg = 2#4 ∧ FaultCode.code .badtc = 3#4 ∧ FaultCode.code .order = 4#4) ∧
  ∀ (w : CmdWord) (s t : State) (c : FaultCode), runCommand w s = .next t →
    (t.evtTrace = s.evtTrace ++ [.fault c] ↔
      (c = .illcmd ∧
        CmdWord.op w ∉ [0x00#8, 0x01#8, 0x02#8, 0x03#8, 0x10#8, 0x11#8, 0x12#8, 0x13#8, 0x20#8, 0x21#8]) ∨
      (c = .illreg ∧ ((∃ sel, decode w = .instr (.rdreg sel) ∧ 0x06 < sel.toNat) ∨
        ∃ sel v, decode w = .instr (.wrreg sel v) ∧ sel.toNat ≠ 0x00 ∧ sel.toNat ≠ 0x05 ∧ sel.toNat ≠ 0x06)) ∨
      (c = .badtc ∧ ∃ tc idx, decode w = .instr (.obs tc idx) ∧ isDecimal tc = false) ∨
      (c = .order ∧ s.seen = true ∧
        ((∃ tc idx, decode w = .instr (.obs tc idx) ∧ isDecimal tc = true ∧ idx ≤ s.lastIdx) ∨
          (∃ idx, decode w = .instr (.obsl idx) ∧ idx ≤ s.lastIdx) ∨ ∃ n, decode w = .instr (.endat n) ∧ n < s.lastIdx))) ∧
    (t.evtTrace = s.evtTrace ++ [.fault c] →
      (statusWord t).getLsbD (3 + c.code.toNat) = true ∧ t.fcode = (if s.fcode = 0#4 then c.code else s.fcode) ∧
      (Event.fault c).code = 3#4 ∧ (Event.fault c).data = BitVec.ofNat 32 c.code.toNat ∧
      (∀ sel, decode w = .instr (.rdreg sel) → t.rspTrace = s.rspTrace ++ [⟨true, 0#32⟩]))

/-- R252: raising a fault sets its own sticky bit, keeps the first fault's code, emits its event with the code as data, and
changes nothing else; and a command that raises a fault does only that, but for the `Rsp(1, 0)` of a refused `RDREG`. -/
def Obligations.RaisingAFault : Prop :=
  (∀ (c : FaultCode) (s : State),
    (∀ c', faultBit c' (raiseFault c s) = (faultBit c' s || decide (c' = c))) ∧
    (raiseFault c s).fcode = (if s.fcode = 0#4 then c.code else s.fcode) ∧
    ((raiseFault c s).evtTrace.map fun e => (e.code, e.data)) =
      (s.evtTrace.map fun e => (e.code, e.data)) ++ [(3#4, BitVec.ofNat 32 c.code.toNat)] ∧
    raiseFault c s = { s with
      fIllcmd := (raiseFault c s).fIllcmd, fIllreg := (raiseFault c s).fIllreg, fBadtc := (raiseFault c s).fBadtc
      fOrder := (raiseFault c s).fOrder, fcode := (raiseFault c s).fcode, evtTrace := (raiseFault c s).evtTrace }) ∧
  ∀ (w : CmdWord) (s t : State) (c : FaultCode), runCommand w s = .next t → t.evtTrace = s.evtTrace ++ [.fault c] →
    t = raiseFault c s ∨
      (∃ sel, decode w = .instr (.rdreg sel)) ∧
        t = raiseFault c { s with rspTrace := s.rspTrace ++ [⟨true, 0#32⟩] }

/-- R262: a second fault of the same kind changes nothing but emits its event, one of another kind sets its own bit, and
`FCODE` keeps the first; over every one of the 2^72 words but `SRST`, no sticky bit is cleared and `FCODE` stays; `SRST`
clears them all. -/
def Obligations.OnlyResetClearsStickyBits : Prop :=
  (∀ (c : FaultCode) (s : State), s.fcode ≠ 0#4 →
    (faultBit c s = true → raiseFault c s = { s with evtTrace := s.evtTrace ++ [.fault c] }) ∧
    faultBit c (raiseFault c s) = true ∧ (raiseFault c s).fcode = s.fcode) ∧
  (∀ (w : CmdWord) (s t : State), CmdWord.op w ≠ 0x03#8 → runCommand w s = .next t →
    (∀ c, faultBit c s = true → faultBit c t = true) ∧ (s.malformed = true → t.malformed = true) ∧
    (s.fcode ≠ 0#4 → t.fcode = s.fcode)) ∧
  ∀ s : State, ∃ t, exec .srst s = .next t ∧ (∀ c, faultBit c t = false) ∧ t.malformed = false ∧ t.fcode = 0#4

/-- R263: `STATUS[7:4] = 0` says that no fault bit is set. -/
def Obligations.FaultFreeReadsInStatus : Prop :=
  ∀ s : State, faultFree s ↔ (statusWord s).extractLsb' 4 4 = 0#4

/-- The reset state meets the block's invariant (R54). -/
def Obligations.ResetMeetsTheInvariant : Prop := State.Inv State.reset

/-- R22, R25, R26, R34, R39, R168, R200, R201, R205: every step, from any state that meets the block's invariant, leads to
one that meets it: the counters stay in range, the latch stays decimal, an open segment keeps a real timecode and a start
not after its last index, `fcode` agrees with the fault bits, and every record emitted is a possible one. -/
def Obligations.StepKeepsTheInvariant : Prop :=
  ∀ s t : State, State.Inv s → step s = .next t → State.Inv t

/-- R196: with the block's invariant `OBSL` can never raise BADTC: it is the `OBS` of the latch value. -/
def Obligations.ObslIsObsOfTheLatch : Prop :=
  ∀ (s : State) (idx : Index), State.Inv s → exec (.obsl idx) s = exec (.obs s.tc idx) s

/-! ## Data formats and the host's side -/

/-- R110: the 208-bit word of a record, field by field, and a record carries the `SRCID` and `RATE` of the step that emits
it. -/
def Obligations.RecordWordFields : Prop :=
  (∀ r : SegRecord,
    (SegRecord.pack r).extractLsb' 176 32 = r.srcid ∧ (SegRecord.pack r).extractLsb' 160 16 = r.rate ∧
    (SegRecord.pack r).extractLsb' 128 32 = r.startTc ∧ (SegRecord.pack r).extractLsb' 96 32 = r.endTc ∧
    (SegRecord.pack r).extractLsb' 64 32 = r.startIdx ∧ (SegRecord.pack r).extractLsb' 32 32 = r.endIdx ∧
    (SegRecord.pack r).extractLsb' 0 32 = r.count) ∧
  ∀ (w : CmdWord) (s t : State) (r : SegRecord), runCommand w s = .next t → t.segTrace = s.segTrace ++ [r] →
    (SegRecord.pack r).extractLsb' 176 32 = s.srcid ∧ (SegRecord.pack r).extractLsb' 160 16 = s.rate

/-- R106: the string of a timecode has 11 characters, its digits in reading order with colons between the fields, and is
injective on well-formed timecodes; the example of R106. -/
def Obligations.TimecodeStringIsInjective : Prop :=
  (∀ t : Timecode, (fmt t).map BitVec.toNat =
    [0x30 + t.toNat / 16 ^ 7 % 16, 0x30 + t.toNat / 16 ^ 6 % 16, 0x3A, 0x30 + t.toNat / 16 ^ 5 % 16,
     0x30 + t.toNat / 16 ^ 4 % 16, 0x3A, 0x30 + t.toNat / 16 ^ 3 % 16, 0x30 + t.toNat / 16 ^ 2 % 16, 0x3A,
     0x30 + t.toNat / 16 % 16, 0x30 + t.toNat % 16]) ∧
  (∀ t u : Timecode, isDecimal t = true → isDecimal u = true → fmt t = fmt u → t = u) ∧
  (fmt 0x01020304#32).map BitVec.toNat = [0x30, 0x31, 0x3A, 0x30, 0x32, 0x3A, 0x30, 0x33, 0x3A, 0x30, 0x34]

/-- R66, R62: a buffer of `n` bytes yields `n div 4` commands, from its first `4*(n div 4)` bytes, little-endian. -/
def Obligations.BufferFraming : Prop :=
  ∀ bytes : List Byte,
    (frameBuffer bytes).length = bytes.length / 4 ∧
    frameBuffer bytes = frameBuffer (bytes.take (4 * (bytes.length / 4))) ∧
    ∀ k, k < bytes.length / 4 → (frameBuffer bytes)[k]? =
      some (.sample (bytes.getD (4 * k + 1) 0#8 ++ bytes.getD (4 * k) 0#8)
        (bytes.getD (4 * k + 3) 0#8 ++ bytes.getD (4 * k + 2) 0#8))
end

