-- ==== Sys2Proof/Laws/Bits.lean ====
section
/-! SUPPORT. Bit vectors as numbers: concatenation, slices and single bits. -/

namespace Sys2Proof.Laws

/-- The number a concatenation stands for. -/
theorem append_toNat {m n : Nat} (x : BitVec m) (y : BitVec n) : (x ++ y).toNat = x.toNat * 2 ^ n + y.toNat := by
  rw [BitVec.toNat_append, ← Nat.shiftLeft_add_eq_or_of_lt y.isLt, Nat.shiftLeft_eq]

/-- The number a slice stands for. -/
theorem extract_toNat {m : Nat} (x : BitVec m) (s n : Nat) : (x.extractLsb' s n).toNat = x.toNat / 2 ^ s % 2 ^ n := by
  rw [BitVec.extractLsb'_toNat, Nat.shiftRight_eq_div_pow]

/-- One bit of a vector, read off its number. -/
theorem getLsbD_arith {m : Nat} (x : BitVec m) (i : Nat) : x.getLsbD i = decide (x.toNat / 2 ^ i % 2 = 1) := by
  rw [← BitVec.testBit_toNat, Nat.testBit_eq_decide_div_mod_eq]

end Sys2Proof.Laws
end

