-- ==== Sys2Proof/Laws/Assembler.lean ====
section
/-! SUPPORT. The assembler and the parser: what a push can do, said once (spec/41_frame_sync.md R141 to R144; spec/42_frame_parser_latch.md R160). -/

open Sys2Proof Sys2Proof.Machine

namespace Sys2Proof.Laws

/-- The shift register after a push, as a number. -/
theorem shiftIn_toNat (b : Bool) (sr : BitVec 80) : (shiftIn b sr).toNat = b.toNat * 2^79 + sr.toNat / 2 := by
  unfold shiftIn
  rw [show (BitVec.cons b (sr.extractLsb' 1 79)).toNat = _ from BitVec.toNat_cons ..]
  have := sr.isLt
  rw [← Nat.shiftLeft_add_eq_or_of_lt (BitVec.isLt _), Nat.shiftLeft_eq, extract_toNat]; omega

/-- A pushed `0` shifts a zero in. -/
theorem shiftIn_false (sr : BitVec 80) : shiftIn false sr = sr >>> 1 := by
  apply BitVec.eq_of_toNat_eq; rw [shiftIn_toNat]; simp [Nat.shiftRight_eq_div_pow]

/-- A pushed `1` sets the newest bit. -/
theorem shiftIn_true (sr : BitVec 80) : shiftIn true sr = sr >>> 1 ||| 0x80000000000000000000#80 := by
  apply BitVec.eq_of_toNat_eq; rw [shiftIn_toNat]
  have := sr.isLt
  rw [BitVec.toNat_or, BitVec.toNat_ushiftRight, Nat.shiftRight_eq_div_pow, Nat.or_comm]
  have := Nat.shiftLeft_add_eq_or_of_lt (a := 1) (b := sr.toNat / 2^1) (i := 79) (by omega)
  simp [Nat.shiftLeft_eq] at this ⊢
  omega

/-- Each bit of the shift register after a push. -/
theorem shiftIn_bit (b : Bool) (sr : BitVec 80) (i : Nat) (hi : i < 80) : (shiftIn b sr).getLsbD i = if i = 79 then b else sr.getLsbD (i + 1) := by
  rw [getLsbD_arith, shiftIn_toNat]
  have h := sr.isLt
  by_cases h79 : i = 79
  · subst h79; cases b <;> simp <;> omega
  · rw [if_neg h79, getLsbD_arith]
    apply decide_eq_decide.mpr
    have : (b.toNat * 2 ^ 79 + sr.toNat / 2) / 2 ^ i % 2 = sr.toNat / 2 ^ (i+1) % 2 := by
      obtain ⟨k, hk⟩ : ∃ k, 79 = i + (k + 1) := ⟨78 - i, by omega⟩
      rw [show (79:Nat) = i + (k + 1) from hk, pow_add, pow_succ 2 k, show b.toNat * (2 ^ i * (2 ^ k * 2)) = 2 ^ i * (b.toNat * 2 ^ k * 2) by ring,
        Nat.mul_add_div (by positivity), pow_succ, Nat.div_div_eq_div_mul, Nat.mul_comm 2 (2^i)]
      omega
    rw [this]

/-- The length after a push, saturating at 81. -/
theorem nextLen_toNat (l : BitVec 7) : (nextLen l).toNat = min (l.toNat + 1) 81 := by
  simp [nextLen, Config.lenSat]

/-- A pushed `0` never completes the sync word (R142). -/
theorem cutNow_shiftIn_false (sr : BitVec 80) (l) : cutNow (shiftIn false sr) l = false := by
  have : (shiftIn false sr).extractLsb' 64 16 ≠ Config.sync := by
    intro h
    have h := congrArg BitVec.toNat h
    have := sr.isLt
    simp only [extract_toNat, shiftIn_toNat, Config.sync] at h
    simp at h; omega
  simp [cutNow, syncMatch, this]

/-- When a push cuts: more than 80 bits and the sync word (R143). -/
theorem cutNow_nextLen (sr : BitVec 80) (l : BitVec 7) : cutNow sr (nextLen l) = true ↔ 80 ≤ l.toNat ∧ sr.extractLsb' 64 16 = 0xBFFC#16 := by
  simp only [cutNow, syncMatch, nextLen_toNat, Config.syncLen, Config.cutLen, Config.sync, Bool.and_eq_true, decide_eq_true_eq]
  constructor
  · rintro ⟨⟨_, h⟩, h2⟩; exact ⟨by omega, of_decide_eq_true h⟩
  · rintro ⟨h2, h⟩; exact ⟨⟨by omega, decide_eq_true h⟩, by omega⟩

/-- A push that does not cut only appends. -/
theorem pushBit_append {b : Bool} {s : State} (h : cutNow (shiftIn b s.sr) (nextLen s.len) = false) : pushBit b s = appendBit b s := by
  unfold pushBit; simp only; rw [if_neg]; simpa [appendBit] using h

/-- A push that cuts hands the shift register to the parser, on the cleared accumulator (R144). -/
theorem pushBit_cut {b : Bool} {s : State} (h : cutNow (shiftIn b s.sr) (nextLen s.len) = true) : pushBit b s = parseAndLatch (shiftIn b s.sr) (clearAccumulator s) := by
  unfold pushBit; simp only; rw [if_pos]; rfl; simpa [appendBit] using h

/-- A frame that passes, or any frame in permissive mode, updates the latch (R172, R175). -/
theorem parseAndLatch_accepted (f : Frame) (s : State) (h : s.strict = false ∨ frameValid (rawFields f) s.ffMax = true) :
  parseAndLatch f s = emitEvt (.frame (frameTimecode f)) (updateLatch f s) := by
  unfold parseAndLatch; rw [if_neg]; rcases h with h | h <;> simp [h]

/-- A frame that fails in strict mode only marks MALFORMED (R171). -/
theorem parseAndLatch_rejected (f : Frame) (s : State) (h : s.strict = true) (h' : frameValid (rawFields f) s.ffMax = false) :
  parseAndLatch f s = emitEvt (.malformed (frameTimecode f)) (markMalformed s) := by
  unfold parseAndLatch; rw [if_pos]; simp [h, h']

/-- Everything the parser can do. -/
theorem parseAndLatch_cases (f : Frame) (s : State) :
  parseAndLatch f s = emitEvt (.frame (frameTimecode f)) (updateLatch f s) ∨
  (s.strict = true ∧ frameValid (rawFields f) s.ffMax = false ∧ parseAndLatch f s = emitEvt (.malformed (frameTimecode f)) (markMalformed s)) := by
  unfold parseAndLatch
  split
  · rename_i h; simp at h; exact .inr ⟨h.1, h.2, rfl⟩
  · exact .inl rfl

/-- Everything a push can do. -/
theorem pushBit_cases (b : Bool) (s : State) :
  pushBit b s = appendBit b s ∨
  pushBit b s = emitEvt (.frame (frameTimecode (shiftIn b s.sr))) (updateLatch (shiftIn b s.sr) (clearAccumulator s)) ∨
  pushBit b s = emitEvt (.malformed (frameTimecode (shiftIn b s.sr))) (markMalformed (clearAccumulator s)) := by
  by_cases h : cutNow (shiftIn b s.sr) (nextLen s.len) = true
  · rw [pushBit_cut h]
    rcases parseAndLatch_cases (shiftIn b s.sr) (clearAccumulator s) with h | ⟨-, -, h⟩ <;> simp [h]
  · exact .inl (pushBit_append (by simpa using h))

end Sys2Proof.Laws
end

