-- ==== Sys2Proof/Laws/Decode.lean ====
section
/-! SUPPORT. The fields of a command word, and what the decoder can answer (spec/30_encoding.md R80 to R88). -/

open Sys2Proof Sys2Proof.Machine

namespace Sys2Proof.Laws

/-- The number of an assembled word. -/
theorem mkCmd_toNat (op : BitVec 8) (a b : BitVec 32) :
    (mkCmd op a b).toNat = op.toNat * 2 ^ 64 + a.toNat * 2 ^ 32 + b.toNat := by
  refine (append_toNat (op ++ a) b).trans ?_
  rw [append_toNat]; omega

/-- The opcode of an assembled word. -/
theorem op_mkCmd (op : BitVec 8) (a b : BitVec 32) : CmdWord.op (mkCmd op a b) = op := by
  apply BitVec.eq_of_toNat_eq; simp only [CmdWord.op, extract_toNat, mkCmd_toNat]; omega

/-- The first operand of an assembled word. -/
theorem a_mkCmd (op : BitVec 8) (a b : BitVec 32) : CmdWord.a (mkCmd op a b) = a := by
  apply BitVec.eq_of_toNat_eq; simp only [CmdWord.a, extract_toNat, mkCmd_toNat]; omega

/-- The second operand of an assembled word. -/
theorem b_mkCmd (op : BitVec 8) (a b : BitVec 32) : CmdWord.b (mkCmd op a b) = b := by
  apply BitVec.eq_of_toNat_eq; simp only [CmdWord.b, extract_toNat, mkCmd_toNat]; omega

/-- A word is its three fields put together (R80). -/
theorem mkCmd_fields (w : CmdWord) : mkCmd (CmdWord.op w) (CmdWord.a w) (CmdWord.b w) = w := by
  apply BitVec.eq_of_toNat_eq; simp only [mkCmd_toNat, CmdWord.op, CmdWord.a, CmdWord.b, extract_toNat]; omega

/-- The two amplitudes of an assembled `SAMPLE` (R84). -/
theorem sampleOperands_append (s1 s0 : BitVec 16) : BitVec.extractLsb' 0 16 (s1 ++ s0 : BitVec 32) = s0 ∧ BitVec.extractLsb' 16 16 (s1 ++ s0 : BitVec 32) = s1 := by
  constructor <;> apply BitVec.eq_of_toNat_eq <;> rw [extract_toNat, show (s1 ++ s0 : BitVec 32).toNat = _ from append_toNat s1 s0] <;> omega

/-- The selector of an assembled register command (R87). -/
theorem selector_append (s0 : BitVec 8) : BitVec.extractLsb' 0 8 (0#24 ++ s0 : BitVec 32) = s0 := by
  apply BitVec.eq_of_toNat_eq ; rw [extract_toNat, show (0#24 ++ s0 : BitVec 32).toNat = _ from append_toNat 0#24 s0] ; simp; omega

/-- The decoder answers with the reserved opcode, or with a command of that opcode. -/
theorem decode_cases (w : CmdWord) : decode w = .reserved (CmdWord.op w) ∨ ∃ i, decode w = .instr i ∧ i.opcode = CmdWord.op w := by
  unfold decode
  simp only
  repeat' split
  all_goals first | exact .inl rfl | exact .inr ⟨_, rfl, by simp [Instr.opcode, *]⟩

/-- A word whose opcode is none of the ten is answered as reserved (R88). -/
theorem decode_reserved (w : CmdWord) (h : CmdWord.op w ∉ [0x00#8, 0x01#8, 0x02#8, 0x03#8, 0x10#8, 0x11#8, 0x12#8, 0x13#8, 0x20#8, 0x21#8]) :
   decode w = .reserved (CmdWord.op w) := by
  simp only [List.mem_cons, List.not_mem_nil, or_false, not_or] at h
  simp [decode, h]

/-- A decoded command has the opcode of its word. -/
theorem decode_opcode (w : CmdWord) (i : Instr) (h : decode w = .instr i) : i.opcode = CmdWord.op w := by
  rcases decode_cases w with h' | ⟨j, h', h''⟩ <;> rw [h'] at h <;> cases h
  exact h''

/-- Words that agree under a mask agree on every field the mask covers. -/
theorem usedField_eq {w w' m : CmdWord} (h : w &&& m = w' &&& m) (lo n : Nat) (hm : m.extractLsb' lo n = BitVec.allOnes n) : w.extractLsb' lo n = w'.extractLsb' lo n := by
  have := congrArg (BitVec.extractLsb' lo n) h
  rw [BitVec.extractLsb'_and, BitVec.extractLsb'_and, hm, BitVec.and_allOnes, BitVec.and_allOnes] at this
  exact this

/-- A mask over one range of bits clears a word exactly when that range of the word is zero. -/
theorem and_range_eq_zero {w m : CmdWord} (lo n : Nat) (hm : ∀ i : Nat, i < 72 → m.getLsbD i = (decide (lo ≤ i) && decide (i < lo + n))) :
    w &&& m = 0#72 ↔ w.toNat / 2 ^ lo % 2 ^ n = 0 := by
  have e : w.toNat / 2 ^ lo % 2 ^ n = 0 ↔ w.extractLsb' lo n = 0#n := by
    rw [← extract_toNat]; constructor
    · intro h; exact BitVec.eq_of_toNat_eq (by simpa using h)
    · intro h; rw [h]; simp
  rw [e]
  constructor
  · intro h
    apply BitVec.eq_of_getLsbD_eq
    intro i hi
    have := congrArg (fun x => BitVec.getLsbD x (lo + i)) h
    simp only [BitVec.getLsbD_and, BitVec.getLsbD_zero] at this
    rw [BitVec.getLsbD_extractLsb', BitVec.getLsbD_zero]
    by_cases h72 : lo + i < 72
    · rw [hm _ h72] at this
      have h1 : lo ≤ lo + i := by omega
      have h2 : lo + i < lo + n := by omega
      simp [h1, h2] at this
      simp [this]
    · simp [BitVec.getLsbD_of_ge w (lo+i) (by omega)]
  · intro h
    apply BitVec.eq_of_getLsbD_eq
    intro i hi
    rw [BitVec.getLsbD_and, hm i hi, BitVec.getLsbD_zero]
    by_cases h1 : lo ≤ i ∧ i < lo + n
    · have := congrArg (fun x => BitVec.getLsbD x (i - lo)) h
      simp only [BitVec.getLsbD_extractLsb', BitVec.getLsbD_zero] at this
      have h2 : i - lo < n := by omega
      have h3 : lo + (i - lo) = i := by omega
      simp [h2, h3] at this
      simp [this]
    · have : (decide (lo ≤ i) && decide (i < lo + n)) = false := by simpa using h1
      rw [this, Bool.and_false]

/-- A word is the assembled word of a command exactly when the numbers of its fields say so. -/
theorem encode_eq_iff (w : CmdWord) (i : Instr) : encode i = w ↔ i.opcode.toNat * 2 ^ 64 + i.operandA.toNat * 2 ^ 32 + i.operandB.toNat = w.toNat := by
  rw [← mkCmd_toNat]; exact ⟨fun h => by rw [← h]; rfl, fun h => BitVec.eq_of_toNat_eq h⟩

end Sys2Proof.Laws
end

