-- ==== Sys2Proof/Laws/Operands.lean ====
section
/-! SUPPORT. Operands, frame fields, timecodes, and the register words (spec/40_demodulator.md R121 to R123; spec/42_frame_parser_latch.md R162 to R170). -/

open Sys2Proof Sys2Proof.Machine

namespace Sys2Proof.Laws

/-- `signed16` is the two's complement reading (00_scope.md R12). -/
theorem signed16_eq_toInt (w : Amplitude) : signed16 w = w.toInt := by
  unfold signed16
  rw [BitVec.toInt_eq_toNat_cond, extract_toNat, getLsbD_arith]
  have := w.isLt
  by_cases h : w.toNat / 2^15 % 2 = 1 <;> simp only [h, decide_true, decide_false, if_true, Bool.false_eq_true, if_false] <;> split <;> omega

/-- When a pair is Negative (R121). -/
theorem classify_iff (s0 s1 : Amplitude) : classify s0 s1 = .neg ↔ min (signed16 s0) (signed16 s1) < 0 := by
  unfold classify; split <;> simp_all

/-- A run below 7 is noise (R123). -/
theorem runClass_noise (r : BitVec 4) (h : r.toNat < 7) : runClass r = .noise := by
  revert r; decide

/-- A run above 14 is long (R123). -/
theorem runClass_long (r : BitVec 4) (h : 14 < r.toNat) : runClass r = .long := by
  revert r; decide

/-- A run from 7 to 14 is short (R123). -/
theorem runClass_short (r : BitVec 4) (h : 7 ≤ r.toNat) (h : r.toNat ≤ 14) : runClass r = .short := by
  revert r; decide

/-- The class of a saturated run length is the class of the unbounded one (10_state.md R52). -/
theorem runClass_saturated (r : BitVec 4) (d : Nat) (h : r.toNat = min d 15) : runClass r = if 7 ≤ d ∧ d ≤ 14 then .short else if 14 < d then .long else .noise := by
  by_cases h1 : 7 ≤ d ∧ d ≤ 14
  · rw [if_pos h1]; exact runClass_short _ (by omega) (by omega)
  · rw [if_neg h1]
    by_cases h2 : 14 < d
    · rw [if_pos h2]; exact runClass_long _ (by omega)
    · rw [if_neg h2]; exact runClass_noise _ (by omega)

/-- A frame field as arithmetic on the frame. -/
theorem fieldValue_eq (p : Config.FieldPos) (f : Frame) : fieldValue p f = f.toNat / 2 ^ p.lo % 2 ^ p.width := by
  rw [fieldValue, extract_toNat]

/-- The ranges the widths allow (30_encoding.md R104). -/
theorem rawFields_bounds (f : Frame) : (rawFields f).fu < 16 ∧ (rawFields f).ft < 4 ∧ (rawFields f).su < 16 ∧ (rawFields f).st < 8 ∧ (rawFields f).mu < 16 ∧ (rawFields f).mt < 8 ∧ (rawFields f).hu < 16 ∧ (rawFields f).ht < 4 := by
  refine ⟨?_, ?_, ?_, ?_, ?_, ?_, ?_, ?_⟩ <;> exact BitVec.isLt _

/-- A digit of a timecode as arithmetic. -/
theorem tcDigit_eq (t : Timecode) (k : Nat) : tcDigit t k = t.toNat / 16 ^ k % 16 := by
  rw [tcDigit, extract_toNat, pow_mul]; rfl

/-- The decimal check digit by digit (00_scope.md R13). -/
theorem isDecimal_digits (t : Timecode) : isDecimal t = true ↔ tcDigit t 0 ≤ 9 ∧ tcDigit t 1 ≤ 9 ∧ tcDigit t 2 ≤ 9 ∧ tcDigit t 3 ≤ 9 ∧ tcDigit t 4 ≤ 9 ∧ tcDigit t 5 ≤ 9 ∧ tcDigit t 6 ≤ 9 ∧ tcDigit t 7 ≤ 9 := by
  simp [isDecimal]

/-- The decimal check over digit numbers. -/
theorem isDecimal_iff (t : Timecode) : isDecimal t = true ↔ ∀ k < 8, t.toNat / 16 ^ k % 16 ≤ 9 := by
  simp only [isDecimal, List.all_cons, List.all_nil, Bool.and_true, Bool.and_eq_true, decide_eq_true_eq, tcDigit_eq]
  constructor
  · intro h k hk
    interval_cases k <;> simp_all
  · intro h
    exact ⟨h 0 (by omega), h 1 (by omega), h 2 (by omega), h 3 (by omega), h 4 (by omega), h 5 (by omega), h 6 (by omega), h 7 (by omega)⟩

/-- Two digits of a value below 100. -/
theorem twoDigits_toNat (v : Nat) (h : v < 100) : (twoDigits v).toNat = v / 10 * 16 + v % 10 := by
  unfold twoDigits
  refine (append_toNat _ (digitBits (v % 10))).trans ?_
  simp only [digitBits, BitVec.toNat_ofNat]; omega

/-- A packed timecode as a number. -/
theorem packTimecode_toNat (a b c d : Nat) (ha : a < 100) (hb : b < 100) (hc : c < 100) (hd : d < 100) :
    (packTimecode a b c d).toNat = (((a / 10 * 16 + a % 10) * 256 + (b / 10 * 16 + b % 10)) * 256 + (c / 10 * 16 + c % 10)) * 256 + (d / 10 * 16 + d % 10) := by
  unfold packTimecode
  refine (append_toNat _ (twoDigits d)).trans ?_
  rw [append_toNat, append_toNat, twoDigits_toNat _ ha, twoDigits_toNat _ hb, twoDigits_toNat _ hc, twoDigits_toNat _ hd]; rfl

/-- The digits of a packed timecode (R165). -/
theorem packTimecode_digits (a b c d : Nat) (ha : a < 100) (hb : b < 100) (hc : c < 100) (hd : d < 100) :
    tcDigit (packTimecode a b c d) 7 = a / 10 ∧ tcDigit (packTimecode a b c d) 6 = a % 10 ∧
    tcDigit (packTimecode a b c d) 5 = b / 10 ∧ tcDigit (packTimecode a b c d) 4 = b % 10 ∧
    tcDigit (packTimecode a b c d) 3 = c / 10 ∧ tcDigit (packTimecode a b c d) 2 = c % 10 ∧
    tcDigit (packTimecode a b c d) 1 = d / 10 ∧ tcDigit (packTimecode a b c d) 0 = d % 10 := by
  simp only [tcDigit_eq, packTimecode_toNat a b c d ha hb hc hd, Nat.reducePow]
  have h1 : a / 10 < 10 := by omega
  have h2 : b / 10 < 10 := by omega
  have h3 : c / 10 < 10 := by omega
  have h4 : d / 10 < 10 := by omega
  have h5 := Nat.mod_lt a (show 0 < 10 by decide)
  have h6 := Nat.mod_lt b (show 0 < 10 by decide)
  have h7 := Nat.mod_lt c (show 0 < 10 by decide)
  have h8 := Nat.mod_lt d (show 0 < 10 by decide)
  generalize a / 10 = a1 at *
  generalize b / 10 = b1 at *
  generalize c / 10 = c1 at *
  generalize d / 10 = d1 at *
  generalize a % 10 = a0 at *
  generalize b % 10 = b0 at *
  generalize c % 10 = c0 at *
  generalize d % 10 = d0 at *
  refine ⟨?_, ?_, ?_, ?_, ?_, ?_, ?_, ?_⟩ <;> omega

/-- One bit of a frame as arithmetic. -/
theorem frameBit_eq (f : Frame) (i : Nat) : (if f.getLsbD i then 1 else 0) = f.toNat / 2 ^ i % 2 := by
  rw [getLsbD_arith]; by_cases h : f.toNat / 2 ^ i % 2 = 1 <;> simp [h]; omega

/-- `CTRL` as a number (10_state.md R40). -/
theorem ctrlWord_toNat (s : State) : (ctrlWord s).toNat = s.ffMax.toNat * 256 + s.strict.toNat := by
  refine (append_toNat (0#18 ++ s.ffMax ++ 0#7) _).trans ?_
  rw [append_toNat, append_toNat]; simp; omega

/-- `STATUS` as a number (10_state.md R41). -/
theorem statusWord_toNat (s : State) : (statusWord s).toNat = s.fcode.toNat * 256 + s.fOrder.toNat * 128 + s.fBadtc.toNat * 64 + s.fIllreg.toNat * 32 + s.fIllcmd.toNat * 16 + s.seen.toNat * 8 + s.malformed.toNat * 4 + s.segOpen.toNat * 2 + s.synced.toNat := by
  unfold statusWord
  refine (append_toNat _ (BitVec.ofBool s.synced)).trans ?_
  simp only [append_toNat, BitVec.toNat_ofBool]; simp; omega

end Sys2Proof.Laws
end

