-- ==== Sys2Proof/Laws/Ops.lean ====
section
/-! SUPPORT. The other shared operations, each said once: what it can do. -/

open Sys2Proof Sys2Proof.Machine

namespace Sys2Proof.Laws

/-- Everything an observation of a polarity can do (40_demodulator.md R120). -/
theorem observePolarity_cases (p : Polarity) (s : State) :
    observePolarity p s = countRun s ∨ observePolarity p s = startRun p s ∨ observePolarity p s = startRun p (setToggle true s) ∨
    observePolarity p s = startRun p (pushBit false s) ∨ observePolarity p s = startRun p (setToggle false (pushBit true s)) := by
  unfold observePolarity endRun
  split
  · simp
  · split
    · split <;> simp
    · simp
    · simp

/-- Everything an observation of a timecode can do (43_segment_aggregator.md R191). -/
theorem observe_cases (t : Timecode) (idx : Index) (s : State) :
  (s.seen = true ∧ idx ≤ s.lastIdx ∧ observe t idx s = raiseFault .order s) ∨
  ((s.seen = true → s.lastIdx < idx) ∧
   ((t = 0#32 ∧ observe t idx s = noteIndex idx s) ∨
    (t ≠ 0#32 ∧ s.segOpen = false ∧ observe t idx s = beginSegment t idx (noteIndex idx s)) ∨
    (s.segOpen = true ∧ t ≠ 0#32 ∧ t = s.prevTc ∧ observe t idx s = noteIndex idx s) ∨
    (s.segOpen = true ∧ t ≠ 0#32 ∧ t ≠ s.prevTc ∧ observe t idx s = beginSegment t idx (emitSeg (closingRecord (idx - 1#32) s) (noteIndex idx s))))) := by
  unfold observe extendSegment
  by_cases h : s.seen = true ∧ idx ≤ s.lastIdx
  · left; refine ⟨h.1, h.2, ?_⟩; simp [h.1, h.2]
  · right
    refine ⟨fun hs => ?_, ?_⟩
    · have : ¬ idx ≤ s.lastIdx := fun hh => h ⟨hs, hh⟩
      bv_omega
    · have : ¬ ((s.seen && decide (idx ≤ s.lastIdx)) = true) := by simpa using h
      rw [if_neg this]
      by_cases ht : t = 0#32
      · left; simp [ht, Config.tcSentinel]
      · have ht' : ¬ t = Config.tcSentinel := ht
        rw [if_neg ht']
        by_cases ho : s.segOpen = true
        · have ho' : (noteIndex idx s).segOpen = true := ho
          by_cases hp : t = s.prevTc
          · right; right; left; exact ⟨ho, ht, hp, by simp [noteIndex, ho, hp]⟩
          · right; right; right; refine ⟨ho, ht, hp, ?_⟩
            have hp' : ¬ t = (noteIndex idx s).prevTc := hp
            rw [if_neg (by simp [ho']), if_neg hp']; rfl
        · right; left; exact ⟨ht, by simpa using ho, by simp [noteIndex, ho]⟩

/-- Everything the end of a source can do (43_segment_aggregator.md R198). -/
theorem closeInput_cases (n : Index) (s : State) :
   (s.segOpen = true ∧ closeInput n s = clearAggregator (emitSeg (closingRecord n s) s)) ∨
   (s.segOpen = false ∧ closeInput n s = clearAggregator s) := by
  unfold closeInput; cases s.segOpen <;> simp

end Sys2Proof.Laws
end

