-- ==== Sys2Proof/Laws/PerInstr.lean ====
section
/-! SUPPORT. Statements about every command as syntax, one lemma per constructor. -/

namespace Sys2Proof.Laws.Assembled

/-- The assembled word of a command holds its opcode and its operands in the three fields of spec/30_encoding.md R80. -/
def Statement (i : Instr) : Prop :=
  CmdWord.op (encode i) = i.opcode ∧ CmdWord.a (encode i) = i.operandA ∧ CmdWord.b (encode i) = i.operandB

/-- For any command: `encode` is `mkCmd` of the three. -/
theorem of_fields (i : Instr) : Statement i := ⟨op_mkCmd _ _ _, a_mkCmd _ _ _, b_mkCmd _ _ _⟩

theorem nop : Statement .nop := of_fields _
theorem sample (s0 s1 : Amplitude) : Statement (.sample s0 s1) := of_fields _
theorem newpass : Statement .newpass := of_fields _
theorem srst : Statement .srst := of_fields _
theorem obs (t : Timecode) (idx : Index) : Statement (.obs t idx) := of_fields _
theorem obsl (idx : Index) : Statement (.obsl idx) := of_fields _
theorem endInput : Statement .endInput := of_fields _
theorem endat (n : Index) : Statement (.endat n) := of_fields _
theorem rdreg (sel : Sel) : Statement (.rdreg sel) := of_fields _
theorem wrreg (sel : Sel) (v : RegValue) : Statement (.wrreg sel v) := of_fields _

end Sys2Proof.Laws.Assembled
end

