-- ==== Sys2Proof/Laws/Step.lean ====
section
/-! SUPPORT. Inversion of `exec`, of a taken command word and of `step`: every command said once. -/

open Sys2Proof Sys2Proof.Machine

namespace Sys2Proof.Laws

/-- Every command leads to a next state (00_scope.md R9). -/
theorem exec_next (i : Instr) (s : State) : ∃ t, exec i s = .next t := by
  cases i <;> simp only [exec, execNop, execSample, execNewpass, execSrst, execObs, execObsl, execEnd, execEndat, execRdreg, execWrreg]
  all_goals first | exact ⟨_, rfl⟩ | (split <;> exact ⟨_, rfl⟩)

/-- Everything a command can do, command by command. -/
theorem exec_cases (i s t) (h : exec i s = .next t) :
  match i with
  | .nop => t = s
  | .sample s0 s1 => t = observePolarity (classify s0 s1) s
  | .newpass => t = clearAccumulator (clearDemod s)
  | .srst => t = fullReset s
  | .obs tc idx => (isDecimal tc = true ∧ t = observe tc idx s) ∨ (isDecimal tc = false ∧ t = raiseFault .badtc s)
  | .obsl idx => t = observe s.tc idx s
  | .endInput => t = closeInput s.lastIdx s
  | .endat n => (s.seen = true ∧ n < s.lastIdx ∧ t = raiseFault .order s) ∨ ((s.seen = true → s.lastIdx ≤ n) ∧ t = closeInput n s)
  | .rdreg sel => (sel.toNat ≤ 6 ∧ ∃ v, t = emitRsp false v s) ∨ (6 < sel.toNat ∧ t = raiseFault .illreg (emitRsp true 0#32 s))
  | .wrreg sel v => (sel = 0x00#8 ∧ t = writeCtrl v s) ∨ (sel = 0x05#8 ∧ t = writeSrcid v s) ∨ (sel = 0x06#8 ∧ t = writeRate v s) ∨
      ((sel ≠ 0x00#8 ∧ sel ≠ 0x05#8 ∧ sel ≠ 0x06#8) ∧ t = raiseFault .illreg s) := by
  cases i with
  | obs tc idx =>
    simp only [exec, execObs] at h
    cases hd : isDecimal tc <;> simp [hd] at h ⊢ <;> exact h.symm
  | endat n =>
    simp only [exec, execEndat] at h
    by_cases hc : (s.seen && decide (n < s.lastIdx)) = true
    · rw [if_pos hc] at h; cases h
      simp only [Bool.and_eq_true, decide_eq_true_eq] at hc
      exact .inl ⟨hc.1, hc.2, rfl⟩
    · rw [if_neg hc] at h; cases h
      simp only [Bool.and_eq_true, decide_eq_true_eq, not_and] at hc
      exact .inr ⟨fun hs => by have := hc hs; bv_omega, rfl⟩
  | rdreg sel =>
    simp only [exec, execRdreg] at h
    unfold regRead at h
    split at h
    · rename_i v hv
      cases h
      refine .inl ⟨?_, _, rfl⟩
      by_contra hn
      have : ∀ k : BitVec 8, k.toNat ≤ 6 → sel ≠ k := by intro k hk e; subst e; omega
      simp [this] at hv
    · rename_i hv
      cases h
      refine .inr ⟨?_, rfl⟩
      repeat' split at hv
      all_goals simp at hv
      have h0 : ∀ k : BitVec 8, sel ≠ k → sel.toNat ≠ k.toNat := fun k h e => h (BitVec.eq_of_toNat_eq e)
      have := h0 _ ‹¬ sel = 0#8›
      have := h0 _ ‹¬ sel = 1#8›
      have := h0 _ ‹¬ sel = 2#8›
      have := h0 _ ‹¬ sel = 3#8›
      have := h0 _ ‹¬ sel = 4#8›
      have := h0 _ ‹¬ sel = 5#8›
      have := h0 _ ‹¬ sel = 6#8›
      simp at *
      omega
  | wrreg sel v =>
    simp only [exec, execWrreg, regWrite] at h
    by_cases h0 : sel = 0#8
    · simp [h0] at h ⊢; exact h.symm
    · by_cases h5 : sel = 5#8
      · simp [h5] at h ⊢; exact h.symm
      · by_cases h6 : sel = 6#8
        · simp [h6] at h ⊢; exact h.symm
        · simp [h0, h5, h6] at h ⊢; exact h.symm
  | _ => simp only [exec, execNop, execSample, execNewpass, execSrst, execObsl, execEnd] at h; cases h; rfl

/-- What a taken word does: its command, or ILLCMD. -/
theorem runCommand_cases (w : CmdWord) (s : State) : (∃ i, decode w = .instr i ∧ i.opcode = CmdWord.op w ∧ runCommand w s = exec i s) ∨ runCommand w s = .next (raiseFault .illcmd s) := by
  rcases decode_cases w with h | ⟨i, h, h'⟩
  · right; simp [runCommand, h]
  · left; exact ⟨i, h, h', by simp [runCommand, h]⟩

/-- Everything a step can do. -/
theorem step_cases (s : State) : (s.inputs = [] ∧ step s = .next s) ∨ ∃ p ps, s.inputs = p :: ps ∧
    ((p.rst = true ∧ step s = .next (fullReset (withInputs ps s))) ∨ (p.rst = false ∧ p.cmdValid = false ∧ step s = .next (withInputs ps s)) ∨
     (p.rst = false ∧ p.cmdValid = true ∧ step s = runCommand p.cmd (withInputs ps s))) := by
  unfold step stepInputs
  cases h : s.inputs with
  | nil => simp
  | cons p ps =>
    right; refine ⟨p, ps, rfl, ?_⟩
    cases h1 : p.rst <;> cases h2 : p.cmdValid <;> simp [takePins, h1, h2]

end Sys2Proof.Laws
end

