-- ==== Sys2Proof/Laws/Ports.lean ====
section
/-! SUPPORT. The pins still to be read take no part in any operation: each commutes with `withInputs`. -/

open Sys2Proof Sys2Proof.Machine

namespace Sys2Proof.Laws

/-- The parser. -/
theorem parseAndLatch_withInputs (f l) (s : State) : parseAndLatch f (withInputs l s) = withInputs l (parseAndLatch f s) := by
  unfold parseAndLatch
  show (if (s.strict && !frameValid (rawFields f) s.ffMax) = true then _ else _) = _
  split <;> rfl

/-- The assembler. -/
theorem pushBit_withInputs (b l) (s : State) : pushBit b (withInputs l s) = withInputs l (pushBit b s) := by
  unfold pushBit
  show (if cutNow (shiftIn b s.sr) (nextLen s.len) = true then parseAndLatch _ (withInputs l (clearAccumulator (appendBit b s))) else _) = withInputs l (if cutNow (shiftIn b s.sr) (nextLen s.len) = true then _ else _)
  split
  · exact parseAndLatch_withInputs _ _ _
  · rfl

/-- The end of a run. -/
theorem endRun_withInputs (l) (s : State) : endRun (withInputs l s) = withInputs l (endRun s) := by
  have e : ∀ s : State, endRun s = match runClass s.run with | .short => if s.toggle = true then setToggle false (pushBit true s) else setToggle true s | .long => pushBit false s | .noise => s := fun s => rfl
  have hr : (withInputs l s).run = s.run := rfl
  have ht : (withInputs l s).toggle = s.toggle := rfl
  rw [e, e, hr, ht]
  cases runClass s.run
  · cases s.toggle
    · rfl
    · exact congrArg (setToggle false) (pushBit_withInputs _ _ _)
  · exact pushBit_withInputs _ _ _
  · rfl

/-- The demodulator. -/
theorem observePolarity_withInputs (p l) (s : State) : observePolarity p (withInputs l s) = withInputs l (observePolarity p s) := by
  unfold observePolarity
  show (if s.lastPol = some p then _ else _) = _
  split
  · rfl
  · rw [endRun_withInputs]; rfl

/-- The aggregator, observing. -/
theorem observe_withInputs (t idx l) (s : State) : observe t idx (withInputs l s) = withInputs l (observe t idx s) := by
  have e : ∀ s : State, observe t idx s = if (s.seen && decide (idx ≤ s.lastIdx)) = true then raiseFault .order s else
     if t = 0#32 then noteIndex idx s else if (!s.segOpen) = true then beginSegment t idx (noteIndex idx s) else if t = s.prevTc then noteIndex idx s else
       beginSegment t idx (emitSeg (closingRecord (idx - 1#32) s) (noteIndex idx s)) := fun s => rfl
  rw [e, e]
  show (if (s.seen && decide (idx ≤ s.lastIdx)) = true then _ else if t = 0#32 then _ else if (!s.segOpen) = true then _ else if t = s.prevTc then _ else _) = _
  repeat' split
  all_goals rfl

/-- The aggregator, closing. -/
theorem closeInput_withInputs (n l) (s : State) : closeInput n (withInputs l s) = withInputs l (closeInput n s) := by
  unfold closeInput
  show clearAggregator (if s.segOpen = true then _ else _) = _
  split <;> rfl

/-- Every command. -/
theorem exec_withInputs (i l) (s t : State) (h : exec i s = .next t) : exec i (withInputs l s) = .next (withInputs l t) := by
  cases i with
  | sample a b => cases h; exact congrArg Host.Outcome.next (observePolarity_withInputs _ _ _)
  | obs tc idx =>
    simp only [exec, execObs] at h ⊢
    cases h
    congr 1
    split
    · exact observe_withInputs _ _ _ _
    · rfl
  | obsl idx => cases h; exact congrArg Host.Outcome.next (observe_withInputs _ _ _ _)
  | endInput => cases h; exact congrArg Host.Outcome.next (closeInput_withInputs _ _ _)
  | endat n =>
    simp only [exec, execEndat] at h ⊢
    cases h
    congr 1
    show (if (s.seen && decide (n < s.lastIdx)) = true then _ else _) = _
    split
    · rfl
    · exact closeInput_withInputs _ _ _
  | rdreg sel =>
    simp only [exec, execRdreg] at h ⊢
    rw [show regRead sel (withInputs l s) = regRead sel s from rfl]
    split at h <;> cases h <;> rfl
  | wrreg sel v =>
    simp only [exec, execWrreg] at h ⊢
    unfold regWrite at h ⊢
    by_cases h0 : sel = 0#8
    · simp only [h0, if_true] at h ⊢; cases h; rfl
    · by_cases h5 : sel = 5#8
      · simp only [h5, if_true] at h ⊢; cases h; rfl
      · by_cases h6 : sel = 6#8
        · simp only [h6, if_true] at h ⊢; cases h; rfl
        · simp only [h0, h5, h6, if_false] at h ⊢; cases h; rfl
  | _ => cases h; rfl

/-- Putting the same pins back changes nothing. -/
theorem withInputs_self (s : State) : withInputs s.inputs s = s := rfl

/-- No command reads or writes the pins. -/
theorem exec_inputs (i) (s t : State) (h : exec i s = .next t) : t.inputs = s.inputs := by
  have := exec_withInputs i s.inputs s t h
  rw [withInputs_self, h] at this
  have e : t = withInputs s.inputs t := by injection this
  rw [e]; rfl

end Sys2Proof.Laws
end

