-- ==== Sys2Proof/Laws/State.lean ====
section
/-! SUPPORT. One lemma per field and update of State, true by unfolding, so that no later proof unfolds an update. -/

open Sys2Proof Sys2Proof.Machine

namespace Sys2Proof.Laws

/-! ### `emitRsp` -/

@[simp] theorem emitRsp_lastPol (err : Bool) (data : RegValue) (s : State) : (emitRsp err data s).lastPol = s.lastPol := rfl
@[simp] theorem emitRsp_run (err : Bool) (data : RegValue) (s : State) : (emitRsp err data s).run = s.run := rfl
@[simp] theorem emitRsp_toggle (err : Bool) (data : RegValue) (s : State) : (emitRsp err data s).toggle = s.toggle := rfl
@[simp] theorem emitRsp_sr (err : Bool) (data : RegValue) (s : State) : (emitRsp err data s).sr = s.sr := rfl
@[simp] theorem emitRsp_len (err : Bool) (data : RegValue) (s : State) : (emitRsp err data s).len = s.len := rfl
@[simp] theorem emitRsp_tc (err : Bool) (data : RegValue) (s : State) : (emitRsp err data s).tc = s.tc := rfl
@[simp] theorem emitRsp_synced (err : Bool) (data : RegValue) (s : State) : (emitRsp err data s).synced = s.synced := rfl
@[simp] theorem emitRsp_ubits (err : Bool) (data : RegValue) (s : State) : (emitRsp err data s).ubits = s.ubits := rfl
@[simp] theorem emitRsp_flags (err : Bool) (data : RegValue) (s : State) : (emitRsp err data s).flags = s.flags := rfl
@[simp] theorem emitRsp_segOpen (err : Bool) (data : RegValue) (s : State) : (emitRsp err data s).segOpen = s.segOpen := rfl
@[simp] theorem emitRsp_prevTc (err : Bool) (data : RegValue) (s : State) : (emitRsp err data s).prevTc = s.prevTc := rfl
@[simp] theorem emitRsp_segStart (err : Bool) (data : RegValue) (s : State) : (emitRsp err data s).segStart = s.segStart := rfl
@[simp] theorem emitRsp_lastIdx (err : Bool) (data : RegValue) (s : State) : (emitRsp err data s).lastIdx = s.lastIdx := rfl
@[simp] theorem emitRsp_seen (err : Bool) (data : RegValue) (s : State) : (emitRsp err data s).seen = s.seen := rfl
@[simp] theorem emitRsp_srcid (err : Bool) (data : RegValue) (s : State) : (emitRsp err data s).srcid = s.srcid := rfl
@[simp] theorem emitRsp_rate (err : Bool) (data : RegValue) (s : State) : (emitRsp err data s).rate = s.rate := rfl
@[simp] theorem emitRsp_strict (err : Bool) (data : RegValue) (s : State) : (emitRsp err data s).strict = s.strict := rfl
@[simp] theorem emitRsp_ffMax (err : Bool) (data : RegValue) (s : State) : (emitRsp err data s).ffMax = s.ffMax := rfl
@[simp] theorem emitRsp_malformed (err : Bool) (data : RegValue) (s : State) : (emitRsp err data s).malformed = s.malformed := rfl
@[simp] theorem emitRsp_fIllcmd (err : Bool) (data : RegValue) (s : State) : (emitRsp err data s).fIllcmd = s.fIllcmd := rfl
@[simp] theorem emitRsp_fIllreg (err : Bool) (data : RegValue) (s : State) : (emitRsp err data s).fIllreg = s.fIllreg := rfl
@[simp] theorem emitRsp_fBadtc (err : Bool) (data : RegValue) (s : State) : (emitRsp err data s).fBadtc = s.fBadtc := rfl
@[simp] theorem emitRsp_fOrder (err : Bool) (data : RegValue) (s : State) : (emitRsp err data s).fOrder = s.fOrder := rfl
@[simp] theorem emitRsp_fcode (err : Bool) (data : RegValue) (s : State) : (emitRsp err data s).fcode = s.fcode := rfl
@[simp] theorem emitRsp_inputs (err : Bool) (data : RegValue) (s : State) : (emitRsp err data s).inputs = s.inputs := rfl
@[simp] theorem emitRsp_rspTrace (err : Bool) (data : RegValue) (s : State) : (emitRsp err data s).rspTrace = s.rspTrace ++ [⟨err, data⟩] := rfl
@[simp] theorem emitRsp_evtTrace (err : Bool) (data : RegValue) (s : State) : (emitRsp err data s).evtTrace = s.evtTrace := rfl
@[simp] theorem emitRsp_segTrace (err : Bool) (data : RegValue) (s : State) : (emitRsp err data s).segTrace = s.segTrace := rfl

/-! ### `emitEvt` -/

@[simp] theorem emitEvt_lastPol (e : Event) (s : State) : (emitEvt e s).lastPol = s.lastPol := rfl
@[simp] theorem emitEvt_run (e : Event) (s : State) : (emitEvt e s).run = s.run := rfl
@[simp] theorem emitEvt_toggle (e : Event) (s : State) : (emitEvt e s).toggle = s.toggle := rfl
@[simp] theorem emitEvt_sr (e : Event) (s : State) : (emitEvt e s).sr = s.sr := rfl
@[simp] theorem emitEvt_len (e : Event) (s : State) : (emitEvt e s).len = s.len := rfl
@[simp] theorem emitEvt_tc (e : Event) (s : State) : (emitEvt e s).tc = s.tc := rfl
@[simp] theorem emitEvt_synced (e : Event) (s : State) : (emitEvt e s).synced = s.synced := rfl
@[simp] theorem emitEvt_ubits (e : Event) (s : State) : (emitEvt e s).ubits = s.ubits := rfl
@[simp] theorem emitEvt_flags (e : Event) (s : State) : (emitEvt e s).flags = s.flags := rfl
@[simp] theorem emitEvt_segOpen (e : Event) (s : State) : (emitEvt e s).segOpen = s.segOpen := rfl
@[simp] theorem emitEvt_prevTc (e : Event) (s : State) : (emitEvt e s).prevTc = s.prevTc := rfl
@[simp] theorem emitEvt_segStart (e : Event) (s : State) : (emitEvt e s).segStart = s.segStart := rfl
@[simp] theorem emitEvt_lastIdx (e : Event) (s : State) : (emitEvt e s).lastIdx = s.lastIdx := rfl
@[simp] theorem emitEvt_seen (e : Event) (s : State) : (emitEvt e s).seen = s.seen := rfl
@[simp] theorem emitEvt_srcid (e : Event) (s : State) : (emitEvt e s).srcid = s.srcid := rfl
@[simp] theorem emitEvt_rate (e : Event) (s : State) : (emitEvt e s).rate = s.rate := rfl
@[simp] theorem emitEvt_strict (e : Event) (s : State) : (emitEvt e s).strict = s.strict := rfl
@[simp] theorem emitEvt_ffMax (e : Event) (s : State) : (emitEvt e s).ffMax = s.ffMax := rfl
@[simp] theorem emitEvt_malformed (e : Event) (s : State) : (emitEvt e s).malformed = s.malformed := rfl
@[simp] theorem emitEvt_fIllcmd (e : Event) (s : State) : (emitEvt e s).fIllcmd = s.fIllcmd := rfl
@[simp] theorem emitEvt_fIllreg (e : Event) (s : State) : (emitEvt e s).fIllreg = s.fIllreg := rfl
@[simp] theorem emitEvt_fBadtc (e : Event) (s : State) : (emitEvt e s).fBadtc = s.fBadtc := rfl
@[simp] theorem emitEvt_fOrder (e : Event) (s : State) : (emitEvt e s).fOrder = s.fOrder := rfl
@[simp] theorem emitEvt_fcode (e : Event) (s : State) : (emitEvt e s).fcode = s.fcode := rfl
@[simp] theorem emitEvt_inputs (e : Event) (s : State) : (emitEvt e s).inputs = s.inputs := rfl
@[simp] theorem emitEvt_rspTrace (e : Event) (s : State) : (emitEvt e s).rspTrace = s.rspTrace := rfl
@[simp] theorem emitEvt_evtTrace (e : Event) (s : State) : (emitEvt e s).evtTrace = s.evtTrace ++ [e] := rfl
@[simp] theorem emitEvt_segTrace (e : Event) (s : State) : (emitEvt e s).segTrace = s.segTrace := rfl

/-! ### `emitSeg` -/

@[simp] theorem emitSeg_lastPol (r : SegRecord) (s : State) : (emitSeg r s).lastPol = s.lastPol := rfl
@[simp] theorem emitSeg_run (r : SegRecord) (s : State) : (emitSeg r s).run = s.run := rfl
@[simp] theorem emitSeg_toggle (r : SegRecord) (s : State) : (emitSeg r s).toggle = s.toggle := rfl
@[simp] theorem emitSeg_sr (r : SegRecord) (s : State) : (emitSeg r s).sr = s.sr := rfl
@[simp] theorem emitSeg_len (r : SegRecord) (s : State) : (emitSeg r s).len = s.len := rfl
@[simp] theorem emitSeg_tc (r : SegRecord) (s : State) : (emitSeg r s).tc = s.tc := rfl
@[simp] theorem emitSeg_synced (r : SegRecord) (s : State) : (emitSeg r s).synced = s.synced := rfl
@[simp] theorem emitSeg_ubits (r : SegRecord) (s : State) : (emitSeg r s).ubits = s.ubits := rfl
@[simp] theorem emitSeg_flags (r : SegRecord) (s : State) : (emitSeg r s).flags = s.flags := rfl
@[simp] theorem emitSeg_segOpen (r : SegRecord) (s : State) : (emitSeg r s).segOpen = s.segOpen := rfl
@[simp] theorem emitSeg_prevTc (r : SegRecord) (s : State) : (emitSeg r s).prevTc = s.prevTc := rfl
@[simp] theorem emitSeg_segStart (r : SegRecord) (s : State) : (emitSeg r s).segStart = s.segStart := rfl
@[simp] theorem emitSeg_lastIdx (r : SegRecord) (s : State) : (emitSeg r s).lastIdx = s.lastIdx := rfl
@[simp] theorem emitSeg_seen (r : SegRecord) (s : State) : (emitSeg r s).seen = s.seen := rfl
@[simp] theorem emitSeg_srcid (r : SegRecord) (s : State) : (emitSeg r s).srcid = s.srcid := rfl
@[simp] theorem emitSeg_rate (r : SegRecord) (s : State) : (emitSeg r s).rate = s.rate := rfl
@[simp] theorem emitSeg_strict (r : SegRecord) (s : State) : (emitSeg r s).strict = s.strict := rfl
@[simp] theorem emitSeg_ffMax (r : SegRecord) (s : State) : (emitSeg r s).ffMax = s.ffMax := rfl
@[simp] theorem emitSeg_malformed (r : SegRecord) (s : State) : (emitSeg r s).malformed = s.malformed := rfl
@[simp] theorem emitSeg_fIllcmd (r : SegRecord) (s : State) : (emitSeg r s).fIllcmd = s.fIllcmd := rfl
@[simp] theorem emitSeg_fIllreg (r : SegRecord) (s : State) : (emitSeg r s).fIllreg = s.fIllreg := rfl
@[simp] theorem emitSeg_fBadtc (r : SegRecord) (s : State) : (emitSeg r s).fBadtc = s.fBadtc := rfl
@[simp] theorem emitSeg_fOrder (r : SegRecord) (s : State) : (emitSeg r s).fOrder = s.fOrder := rfl
@[simp] theorem emitSeg_fcode (r : SegRecord) (s : State) : (emitSeg r s).fcode = s.fcode := rfl
@[simp] theorem emitSeg_inputs (r : SegRecord) (s : State) : (emitSeg r s).inputs = s.inputs := rfl
@[simp] theorem emitSeg_rspTrace (r : SegRecord) (s : State) : (emitSeg r s).rspTrace = s.rspTrace := rfl
@[simp] theorem emitSeg_evtTrace (r : SegRecord) (s : State) : (emitSeg r s).evtTrace = s.evtTrace := rfl
@[simp] theorem emitSeg_segTrace (r : SegRecord) (s : State) : (emitSeg r s).segTrace = s.segTrace ++ [r] := rfl

/-! ### `recordFault` -/

@[simp] theorem recordFault_lastPol (c : FaultCode) (s : State) : (recordFault c s).lastPol = s.lastPol := rfl
@[simp] theorem recordFault_run (c : FaultCode) (s : State) : (recordFault c s).run = s.run := rfl
@[simp] theorem recordFault_toggle (c : FaultCode) (s : State) : (recordFault c s).toggle = s.toggle := rfl
@[simp] theorem recordFault_sr (c : FaultCode) (s : State) : (recordFault c s).sr = s.sr := rfl
@[simp] theorem recordFault_len (c : FaultCode) (s : State) : (recordFault c s).len = s.len := rfl
@[simp] theorem recordFault_tc (c : FaultCode) (s : State) : (recordFault c s).tc = s.tc := rfl
@[simp] theorem recordFault_synced (c : FaultCode) (s : State) : (recordFault c s).synced = s.synced := rfl
@[simp] theorem recordFault_ubits (c : FaultCode) (s : State) : (recordFault c s).ubits = s.ubits := rfl
@[simp] theorem recordFault_flags (c : FaultCode) (s : State) : (recordFault c s).flags = s.flags := rfl
@[simp] theorem recordFault_segOpen (c : FaultCode) (s : State) : (recordFault c s).segOpen = s.segOpen := rfl
@[simp] theorem recordFault_prevTc (c : FaultCode) (s : State) : (recordFault c s).prevTc = s.prevTc := rfl
@[simp] theorem recordFault_segStart (c : FaultCode) (s : State) : (recordFault c s).segStart = s.segStart := rfl
@[simp] theorem recordFault_lastIdx (c : FaultCode) (s : State) : (recordFault c s).lastIdx = s.lastIdx := rfl
@[simp] theorem recordFault_seen (c : FaultCode) (s : State) : (recordFault c s).seen = s.seen := rfl
@[simp] theorem recordFault_srcid (c : FaultCode) (s : State) : (recordFault c s).srcid = s.srcid := rfl
@[simp] theorem recordFault_rate (c : FaultCode) (s : State) : (recordFault c s).rate = s.rate := rfl
@[simp] theorem recordFault_strict (c : FaultCode) (s : State) : (recordFault c s).strict = s.strict := rfl
@[simp] theorem recordFault_ffMax (c : FaultCode) (s : State) : (recordFault c s).ffMax = s.ffMax := rfl
@[simp] theorem recordFault_malformed (c : FaultCode) (s : State) : (recordFault c s).malformed = s.malformed := rfl
@[simp] theorem recordFault_fIllcmd (c : FaultCode) (s : State) : (recordFault c s).fIllcmd = (s.fIllcmd || decide (c = .illcmd)) := rfl
@[simp] theorem recordFault_fIllreg (c : FaultCode) (s : State) : (recordFault c s).fIllreg = (s.fIllreg || decide (c = .illreg)) := rfl
@[simp] theorem recordFault_fBadtc (c : FaultCode) (s : State) : (recordFault c s).fBadtc = (s.fBadtc || decide (c = .badtc)) := rfl
@[simp] theorem recordFault_fOrder (c : FaultCode) (s : State) : (recordFault c s).fOrder = (s.fOrder || decide (c = .order)) := rfl
@[simp] theorem recordFault_fcode (c : FaultCode) (s : State) : (recordFault c s).fcode = if s.fcode = 0#4 then c.code else s.fcode := rfl
@[simp] theorem recordFault_inputs (c : FaultCode) (s : State) : (recordFault c s).inputs = s.inputs := rfl
@[simp] theorem recordFault_rspTrace (c : FaultCode) (s : State) : (recordFault c s).rspTrace = s.rspTrace := rfl
@[simp] theorem recordFault_evtTrace (c : FaultCode) (s : State) : (recordFault c s).evtTrace = s.evtTrace := rfl
@[simp] theorem recordFault_segTrace (c : FaultCode) (s : State) : (recordFault c s).segTrace = s.segTrace := rfl

/-! ### `raiseFault` -/

@[simp] theorem raiseFault_lastPol (c : FaultCode) (s : State) : (raiseFault c s).lastPol = s.lastPol := rfl
@[simp] theorem raiseFault_run (c : FaultCode) (s : State) : (raiseFault c s).run = s.run := rfl
@[simp] theorem raiseFault_toggle (c : FaultCode) (s : State) : (raiseFault c s).toggle = s.toggle := rfl
@[simp] theorem raiseFault_sr (c : FaultCode) (s : State) : (raiseFault c s).sr = s.sr := rfl
@[simp] theorem raiseFault_len (c : FaultCode) (s : State) : (raiseFault c s).len = s.len := rfl
@[simp] theorem raiseFault_tc (c : FaultCode) (s : State) : (raiseFault c s).tc = s.tc := rfl
@[simp] theorem raiseFault_synced (c : FaultCode) (s : State) : (raiseFault c s).synced = s.synced := rfl
@[simp] theorem raiseFault_ubits (c : FaultCode) (s : State) : (raiseFault c s).ubits = s.ubits := rfl
@[simp] theorem raiseFault_flags (c : FaultCode) (s : State) : (raiseFault c s).flags = s.flags := rfl
@[simp] theorem raiseFault_segOpen (c : FaultCode) (s : State) : (raiseFault c s).segOpen = s.segOpen := rfl
@[simp] theorem raiseFault_prevTc (c : FaultCode) (s : State) : (raiseFault c s).prevTc = s.prevTc := rfl
@[simp] theorem raiseFault_segStart (c : FaultCode) (s : State) : (raiseFault c s).segStart = s.segStart := rfl
@[simp] theorem raiseFault_lastIdx (c : FaultCode) (s : State) : (raiseFault c s).lastIdx = s.lastIdx := rfl
@[simp] theorem raiseFault_seen (c : FaultCode) (s : State) : (raiseFault c s).seen = s.seen := rfl
@[simp] theorem raiseFault_srcid (c : FaultCode) (s : State) : (raiseFault c s).srcid = s.srcid := rfl
@[simp] theorem raiseFault_rate (c : FaultCode) (s : State) : (raiseFault c s).rate = s.rate := rfl
@[simp] theorem raiseFault_strict (c : FaultCode) (s : State) : (raiseFault c s).strict = s.strict := rfl
@[simp] theorem raiseFault_ffMax (c : FaultCode) (s : State) : (raiseFault c s).ffMax = s.ffMax := rfl
@[simp] theorem raiseFault_malformed (c : FaultCode) (s : State) : (raiseFault c s).malformed = s.malformed := rfl
@[simp] theorem raiseFault_fIllcmd (c : FaultCode) (s : State) : (raiseFault c s).fIllcmd = (s.fIllcmd || decide (c = .illcmd)) := rfl
@[simp] theorem raiseFault_fIllreg (c : FaultCode) (s : State) : (raiseFault c s).fIllreg = (s.fIllreg || decide (c = .illreg)) := rfl
@[simp] theorem raiseFault_fBadtc (c : FaultCode) (s : State) : (raiseFault c s).fBadtc = (s.fBadtc || decide (c = .badtc)) := rfl
@[simp] theorem raiseFault_fOrder (c : FaultCode) (s : State) : (raiseFault c s).fOrder = (s.fOrder || decide (c = .order)) := rfl
@[simp] theorem raiseFault_fcode (c : FaultCode) (s : State) : (raiseFault c s).fcode = if s.fcode = 0#4 then c.code else s.fcode := rfl
@[simp] theorem raiseFault_inputs (c : FaultCode) (s : State) : (raiseFault c s).inputs = s.inputs := rfl
@[simp] theorem raiseFault_rspTrace (c : FaultCode) (s : State) : (raiseFault c s).rspTrace = s.rspTrace := rfl
@[simp] theorem raiseFault_evtTrace (c : FaultCode) (s : State) : (raiseFault c s).evtTrace = s.evtTrace ++ [.fault c] := rfl
@[simp] theorem raiseFault_segTrace (c : FaultCode) (s : State) : (raiseFault c s).segTrace = s.segTrace := rfl

/-! ### `clearDemod` -/

@[simp] theorem clearDemod_lastPol (s : State) : (clearDemod s).lastPol = none := rfl
@[simp] theorem clearDemod_run (s : State) : (clearDemod s).run = 1#4 := rfl
@[simp] theorem clearDemod_toggle (s : State) : (clearDemod s).toggle = true := rfl
@[simp] theorem clearDemod_sr (s : State) : (clearDemod s).sr = s.sr := rfl
@[simp] theorem clearDemod_len (s : State) : (clearDemod s).len = s.len := rfl
@[simp] theorem clearDemod_tc (s : State) : (clearDemod s).tc = s.tc := rfl
@[simp] theorem clearDemod_synced (s : State) : (clearDemod s).synced = s.synced := rfl
@[simp] theorem clearDemod_ubits (s : State) : (clearDemod s).ubits = s.ubits := rfl
@[simp] theorem clearDemod_flags (s : State) : (clearDemod s).flags = s.flags := rfl
@[simp] theorem clearDemod_segOpen (s : State) : (clearDemod s).segOpen = s.segOpen := rfl
@[simp] theorem clearDemod_prevTc (s : State) : (clearDemod s).prevTc = s.prevTc := rfl
@[simp] theorem clearDemod_segStart (s : State) : (clearDemod s).segStart = s.segStart := rfl
@[simp] theorem clearDemod_lastIdx (s : State) : (clearDemod s).lastIdx = s.lastIdx := rfl
@[simp] theorem clearDemod_seen (s : State) : (clearDemod s).seen = s.seen := rfl
@[simp] theorem clearDemod_srcid (s : State) : (clearDemod s).srcid = s.srcid := rfl
@[simp] theorem clearDemod_rate (s : State) : (clearDemod s).rate = s.rate := rfl
@[simp] theorem clearDemod_strict (s : State) : (clearDemod s).strict = s.strict := rfl
@[simp] theorem clearDemod_ffMax (s : State) : (clearDemod s).ffMax = s.ffMax := rfl
@[simp] theorem clearDemod_malformed (s : State) : (clearDemod s).malformed = s.malformed := rfl
@[simp] theorem clearDemod_fIllcmd (s : State) : (clearDemod s).fIllcmd = s.fIllcmd := rfl
@[simp] theorem clearDemod_fIllreg (s : State) : (clearDemod s).fIllreg = s.fIllreg := rfl
@[simp] theorem clearDemod_fBadtc (s : State) : (clearDemod s).fBadtc = s.fBadtc := rfl
@[simp] theorem clearDemod_fOrder (s : State) : (clearDemod s).fOrder = s.fOrder := rfl
@[simp] theorem clearDemod_fcode (s : State) : (clearDemod s).fcode = s.fcode := rfl
@[simp] theorem clearDemod_inputs (s : State) : (clearDemod s).inputs = s.inputs := rfl
@[simp] theorem clearDemod_rspTrace (s : State) : (clearDemod s).rspTrace = s.rspTrace := rfl
@[simp] theorem clearDemod_evtTrace (s : State) : (clearDemod s).evtTrace = s.evtTrace := rfl
@[simp] theorem clearDemod_segTrace (s : State) : (clearDemod s).segTrace = s.segTrace := rfl

/-! ### `clearAccumulator` -/

@[simp] theorem clearAccumulator_lastPol (s : State) : (clearAccumulator s).lastPol = s.lastPol := rfl
@[simp] theorem clearAccumulator_run (s : State) : (clearAccumulator s).run = s.run := rfl
@[simp] theorem clearAccumulator_toggle (s : State) : (clearAccumulator s).toggle = s.toggle := rfl
@[simp] theorem clearAccumulator_sr (s : State) : (clearAccumulator s).sr = 0#80 := rfl
@[simp] theorem clearAccumulator_len (s : State) : (clearAccumulator s).len = 0#7 := rfl
@[simp] theorem clearAccumulator_tc (s : State) : (clearAccumulator s).tc = s.tc := rfl
@[simp] theorem clearAccumulator_synced (s : State) : (clearAccumulator s).synced = s.synced := rfl
@[simp] theorem clearAccumulator_ubits (s : State) : (clearAccumulator s).ubits = s.ubits := rfl
@[simp] theorem clearAccumulator_flags (s : State) : (clearAccumulator s).flags = s.flags := rfl
@[simp] theorem clearAccumulator_segOpen (s : State) : (clearAccumulator s).segOpen = s.segOpen := rfl
@[simp] theorem clearAccumulator_prevTc (s : State) : (clearAccumulator s).prevTc = s.prevTc := rfl
@[simp] theorem clearAccumulator_segStart (s : State) : (clearAccumulator s).segStart = s.segStart := rfl
@[simp] theorem clearAccumulator_lastIdx (s : State) : (clearAccumulator s).lastIdx = s.lastIdx := rfl
@[simp] theorem clearAccumulator_seen (s : State) : (clearAccumulator s).seen = s.seen := rfl
@[simp] theorem clearAccumulator_srcid (s : State) : (clearAccumulator s).srcid = s.srcid := rfl
@[simp] theorem clearAccumulator_rate (s : State) : (clearAccumulator s).rate = s.rate := rfl
@[simp] theorem clearAccumulator_strict (s : State) : (clearAccumulator s).strict = s.strict := rfl
@[simp] theorem clearAccumulator_ffMax (s : State) : (clearAccumulator s).ffMax = s.ffMax := rfl
@[simp] theorem clearAccumulator_malformed (s : State) : (clearAccumulator s).malformed = s.malformed := rfl
@[simp] theorem clearAccumulator_fIllcmd (s : State) : (clearAccumulator s).fIllcmd = s.fIllcmd := rfl
@[simp] theorem clearAccumulator_fIllreg (s : State) : (clearAccumulator s).fIllreg = s.fIllreg := rfl
@[simp] theorem clearAccumulator_fBadtc (s : State) : (clearAccumulator s).fBadtc = s.fBadtc := rfl
@[simp] theorem clearAccumulator_fOrder (s : State) : (clearAccumulator s).fOrder = s.fOrder := rfl
@[simp] theorem clearAccumulator_fcode (s : State) : (clearAccumulator s).fcode = s.fcode := rfl
@[simp] theorem clearAccumulator_inputs (s : State) : (clearAccumulator s).inputs = s.inputs := rfl
@[simp] theorem clearAccumulator_rspTrace (s : State) : (clearAccumulator s).rspTrace = s.rspTrace := rfl
@[simp] theorem clearAccumulator_evtTrace (s : State) : (clearAccumulator s).evtTrace = s.evtTrace := rfl
@[simp] theorem clearAccumulator_segTrace (s : State) : (clearAccumulator s).segTrace = s.segTrace := rfl

/-! ### `clearAggregator` -/

@[simp] theorem clearAggregator_lastPol (s : State) : (clearAggregator s).lastPol = s.lastPol := rfl
@[simp] theorem clearAggregator_run (s : State) : (clearAggregator s).run = s.run := rfl
@[simp] theorem clearAggregator_toggle (s : State) : (clearAggregator s).toggle = s.toggle := rfl
@[simp] theorem clearAggregator_sr (s : State) : (clearAggregator s).sr = s.sr := rfl
@[simp] theorem clearAggregator_len (s : State) : (clearAggregator s).len = s.len := rfl
@[simp] theorem clearAggregator_tc (s : State) : (clearAggregator s).tc = s.tc := rfl
@[simp] theorem clearAggregator_synced (s : State) : (clearAggregator s).synced = s.synced := rfl
@[simp] theorem clearAggregator_ubits (s : State) : (clearAggregator s).ubits = s.ubits := rfl
@[simp] theorem clearAggregator_flags (s : State) : (clearAggregator s).flags = s.flags := rfl
@[simp] theorem clearAggregator_segOpen (s : State) : (clearAggregator s).segOpen = false := rfl
@[simp] theorem clearAggregator_prevTc (s : State) : (clearAggregator s).prevTc = 0#32 := rfl
@[simp] theorem clearAggregator_segStart (s : State) : (clearAggregator s).segStart = 0#32 := rfl
@[simp] theorem clearAggregator_lastIdx (s : State) : (clearAggregator s).lastIdx = 0#32 := rfl
@[simp] theorem clearAggregator_seen (s : State) : (clearAggregator s).seen = false := rfl
@[simp] theorem clearAggregator_srcid (s : State) : (clearAggregator s).srcid = s.srcid := rfl
@[simp] theorem clearAggregator_rate (s : State) : (clearAggregator s).rate = s.rate := rfl
@[simp] theorem clearAggregator_strict (s : State) : (clearAggregator s).strict = s.strict := rfl
@[simp] theorem clearAggregator_ffMax (s : State) : (clearAggregator s).ffMax = s.ffMax := rfl
@[simp] theorem clearAggregator_malformed (s : State) : (clearAggregator s).malformed = s.malformed := rfl
@[simp] theorem clearAggregator_fIllcmd (s : State) : (clearAggregator s).fIllcmd = s.fIllcmd := rfl
@[simp] theorem clearAggregator_fIllreg (s : State) : (clearAggregator s).fIllreg = s.fIllreg := rfl
@[simp] theorem clearAggregator_fBadtc (s : State) : (clearAggregator s).fBadtc = s.fBadtc := rfl
@[simp] theorem clearAggregator_fOrder (s : State) : (clearAggregator s).fOrder = s.fOrder := rfl
@[simp] theorem clearAggregator_fcode (s : State) : (clearAggregator s).fcode = s.fcode := rfl
@[simp] theorem clearAggregator_inputs (s : State) : (clearAggregator s).inputs = s.inputs := rfl
@[simp] theorem clearAggregator_rspTrace (s : State) : (clearAggregator s).rspTrace = s.rspTrace := rfl
@[simp] theorem clearAggregator_evtTrace (s : State) : (clearAggregator s).evtTrace = s.evtTrace := rfl
@[simp] theorem clearAggregator_segTrace (s : State) : (clearAggregator s).segTrace = s.segTrace := rfl

/-! ### `fullReset` -/

@[simp] theorem fullReset_lastPol (s : State) : (fullReset s).lastPol = State.reset.lastPol := rfl
@[simp] theorem fullReset_run (s : State) : (fullReset s).run = State.reset.run := rfl
@[simp] theorem fullReset_toggle (s : State) : (fullReset s).toggle = State.reset.toggle := rfl
@[simp] theorem fullReset_sr (s : State) : (fullReset s).sr = State.reset.sr := rfl
@[simp] theorem fullReset_len (s : State) : (fullReset s).len = State.reset.len := rfl
@[simp] theorem fullReset_tc (s : State) : (fullReset s).tc = State.reset.tc := rfl
@[simp] theorem fullReset_synced (s : State) : (fullReset s).synced = State.reset.synced := rfl
@[simp] theorem fullReset_ubits (s : State) : (fullReset s).ubits = State.reset.ubits := rfl
@[simp] theorem fullReset_flags (s : State) : (fullReset s).flags = State.reset.flags := rfl
@[simp] theorem fullReset_segOpen (s : State) : (fullReset s).segOpen = State.reset.segOpen := rfl
@[simp] theorem fullReset_prevTc (s : State) : (fullReset s).prevTc = State.reset.prevTc := rfl
@[simp] theorem fullReset_segStart (s : State) : (fullReset s).segStart = State.reset.segStart := rfl
@[simp] theorem fullReset_lastIdx (s : State) : (fullReset s).lastIdx = State.reset.lastIdx := rfl
@[simp] theorem fullReset_seen (s : State) : (fullReset s).seen = State.reset.seen := rfl
@[simp] theorem fullReset_srcid (s : State) : (fullReset s).srcid = State.reset.srcid := rfl
@[simp] theorem fullReset_rate (s : State) : (fullReset s).rate = State.reset.rate := rfl
@[simp] theorem fullReset_strict (s : State) : (fullReset s).strict = State.reset.strict := rfl
@[simp] theorem fullReset_ffMax (s : State) : (fullReset s).ffMax = State.reset.ffMax := rfl
@[simp] theorem fullReset_malformed (s : State) : (fullReset s).malformed = State.reset.malformed := rfl
@[simp] theorem fullReset_fIllcmd (s : State) : (fullReset s).fIllcmd = State.reset.fIllcmd := rfl
@[simp] theorem fullReset_fIllreg (s : State) : (fullReset s).fIllreg = State.reset.fIllreg := rfl
@[simp] theorem fullReset_fBadtc (s : State) : (fullReset s).fBadtc = State.reset.fBadtc := rfl
@[simp] theorem fullReset_fOrder (s : State) : (fullReset s).fOrder = State.reset.fOrder := rfl
@[simp] theorem fullReset_fcode (s : State) : (fullReset s).fcode = State.reset.fcode := rfl
@[simp] theorem fullReset_inputs (s : State) : (fullReset s).inputs = s.inputs := rfl
@[simp] theorem fullReset_rspTrace (s : State) : (fullReset s).rspTrace = s.rspTrace := rfl
@[simp] theorem fullReset_evtTrace (s : State) : (fullReset s).evtTrace = s.evtTrace := rfl
@[simp] theorem fullReset_segTrace (s : State) : (fullReset s).segTrace = s.segTrace := rfl

/-! ### `writeCtrl` -/

@[simp] theorem writeCtrl_lastPol (v : RegValue) (s : State) : (writeCtrl v s).lastPol = s.lastPol := rfl
@[simp] theorem writeCtrl_run (v : RegValue) (s : State) : (writeCtrl v s).run = s.run := rfl
@[simp] theorem writeCtrl_toggle (v : RegValue) (s : State) : (writeCtrl v s).toggle = s.toggle := rfl
@[simp] theorem writeCtrl_sr (v : RegValue) (s : State) : (writeCtrl v s).sr = s.sr := rfl
@[simp] theorem writeCtrl_len (v : RegValue) (s : State) : (writeCtrl v s).len = s.len := rfl
@[simp] theorem writeCtrl_tc (v : RegValue) (s : State) : (writeCtrl v s).tc = s.tc := rfl
@[simp] theorem writeCtrl_synced (v : RegValue) (s : State) : (writeCtrl v s).synced = s.synced := rfl
@[simp] theorem writeCtrl_ubits (v : RegValue) (s : State) : (writeCtrl v s).ubits = s.ubits := rfl
@[simp] theorem writeCtrl_flags (v : RegValue) (s : State) : (writeCtrl v s).flags = s.flags := rfl
@[simp] theorem writeCtrl_segOpen (v : RegValue) (s : State) : (writeCtrl v s).segOpen = s.segOpen := rfl
@[simp] theorem writeCtrl_prevTc (v : RegValue) (s : State) : (writeCtrl v s).prevTc = s.prevTc := rfl
@[simp] theorem writeCtrl_segStart (v : RegValue) (s : State) : (writeCtrl v s).segStart = s.segStart := rfl
@[simp] theorem writeCtrl_lastIdx (v : RegValue) (s : State) : (writeCtrl v s).lastIdx = s.lastIdx := rfl
@[simp] theorem writeCtrl_seen (v : RegValue) (s : State) : (writeCtrl v s).seen = s.seen := rfl
@[simp] theorem writeCtrl_srcid (v : RegValue) (s : State) : (writeCtrl v s).srcid = s.srcid := rfl
@[simp] theorem writeCtrl_rate (v : RegValue) (s : State) : (writeCtrl v s).rate = s.rate := rfl
@[simp] theorem writeCtrl_strict (v : RegValue) (s : State) : (writeCtrl v s).strict = v.getLsbD 0 := rfl
@[simp] theorem writeCtrl_ffMax (v : RegValue) (s : State) : (writeCtrl v s).ffMax = v.extractLsb' 8 6 := rfl
@[simp] theorem writeCtrl_malformed (v : RegValue) (s : State) : (writeCtrl v s).malformed = s.malformed := rfl
@[simp] theorem writeCtrl_fIllcmd (v : RegValue) (s : State) : (writeCtrl v s).fIllcmd = s.fIllcmd := rfl
@[simp] theorem writeCtrl_fIllreg (v : RegValue) (s : State) : (writeCtrl v s).fIllreg = s.fIllreg := rfl
@[simp] theorem writeCtrl_fBadtc (v : RegValue) (s : State) : (writeCtrl v s).fBadtc = s.fBadtc := rfl
@[simp] theorem writeCtrl_fOrder (v : RegValue) (s : State) : (writeCtrl v s).fOrder = s.fOrder := rfl
@[simp] theorem writeCtrl_fcode (v : RegValue) (s : State) : (writeCtrl v s).fcode = s.fcode := rfl
@[simp] theorem writeCtrl_inputs (v : RegValue) (s : State) : (writeCtrl v s).inputs = s.inputs := rfl
@[simp] theorem writeCtrl_rspTrace (v : RegValue) (s : State) : (writeCtrl v s).rspTrace = s.rspTrace := rfl
@[simp] theorem writeCtrl_evtTrace (v : RegValue) (s : State) : (writeCtrl v s).evtTrace = s.evtTrace := rfl
@[simp] theorem writeCtrl_segTrace (v : RegValue) (s : State) : (writeCtrl v s).segTrace = s.segTrace := rfl

/-! ### `writeSrcid` -/

@[simp] theorem writeSrcid_lastPol (v : RegValue) (s : State) : (writeSrcid v s).lastPol = s.lastPol := rfl
@[simp] theorem writeSrcid_run (v : RegValue) (s : State) : (writeSrcid v s).run = s.run := rfl
@[simp] theorem writeSrcid_toggle (v : RegValue) (s : State) : (writeSrcid v s).toggle = s.toggle := rfl
@[simp] theorem writeSrcid_sr (v : RegValue) (s : State) : (writeSrcid v s).sr = s.sr := rfl
@[simp] theorem writeSrcid_len (v : RegValue) (s : State) : (writeSrcid v s).len = s.len := rfl
@[simp] theorem writeSrcid_tc (v : RegValue) (s : State) : (writeSrcid v s).tc = s.tc := rfl
@[simp] theorem writeSrcid_synced (v : RegValue) (s : State) : (writeSrcid v s).synced = s.synced := rfl
@[simp] theorem writeSrcid_ubits (v : RegValue) (s : State) : (writeSrcid v s).ubits = s.ubits := rfl
@[simp] theorem writeSrcid_flags (v : RegValue) (s : State) : (writeSrcid v s).flags = s.flags := rfl
@[simp] theorem writeSrcid_segOpen (v : RegValue) (s : State) : (writeSrcid v s).segOpen = s.segOpen := rfl
@[simp] theorem writeSrcid_prevTc (v : RegValue) (s : State) : (writeSrcid v s).prevTc = s.prevTc := rfl
@[simp] theorem writeSrcid_segStart (v : RegValue) (s : State) : (writeSrcid v s).segStart = s.segStart := rfl
@[simp] theorem writeSrcid_lastIdx (v : RegValue) (s : State) : (writeSrcid v s).lastIdx = s.lastIdx := rfl
@[simp] theorem writeSrcid_seen (v : RegValue) (s : State) : (writeSrcid v s).seen = s.seen := rfl
@[simp] theorem writeSrcid_srcid (v : RegValue) (s : State) : (writeSrcid v s).srcid = v := rfl
@[simp] theorem writeSrcid_rate (v : RegValue) (s : State) : (writeSrcid v s).rate = s.rate := rfl
@[simp] theorem writeSrcid_strict (v : RegValue) (s : State) : (writeSrcid v s).strict = s.strict := rfl
@[simp] theorem writeSrcid_ffMax (v : RegValue) (s : State) : (writeSrcid v s).ffMax = s.ffMax := rfl
@[simp] theorem writeSrcid_malformed (v : RegValue) (s : State) : (writeSrcid v s).malformed = s.malformed := rfl
@[simp] theorem writeSrcid_fIllcmd (v : RegValue) (s : State) : (writeSrcid v s).fIllcmd = s.fIllcmd := rfl
@[simp] theorem writeSrcid_fIllreg (v : RegValue) (s : State) : (writeSrcid v s).fIllreg = s.fIllreg := rfl
@[simp] theorem writeSrcid_fBadtc (v : RegValue) (s : State) : (writeSrcid v s).fBadtc = s.fBadtc := rfl
@[simp] theorem writeSrcid_fOrder (v : RegValue) (s : State) : (writeSrcid v s).fOrder = s.fOrder := rfl
@[simp] theorem writeSrcid_fcode (v : RegValue) (s : State) : (writeSrcid v s).fcode = s.fcode := rfl
@[simp] theorem writeSrcid_inputs (v : RegValue) (s : State) : (writeSrcid v s).inputs = s.inputs := rfl
@[simp] theorem writeSrcid_rspTrace (v : RegValue) (s : State) : (writeSrcid v s).rspTrace = s.rspTrace := rfl
@[simp] theorem writeSrcid_evtTrace (v : RegValue) (s : State) : (writeSrcid v s).evtTrace = s.evtTrace := rfl
@[simp] theorem writeSrcid_segTrace (v : RegValue) (s : State) : (writeSrcid v s).segTrace = s.segTrace := rfl

/-! ### `writeRate` -/

@[simp] theorem writeRate_lastPol (v : RegValue) (s : State) : (writeRate v s).lastPol = s.lastPol := rfl
@[simp] theorem writeRate_run (v : RegValue) (s : State) : (writeRate v s).run = s.run := rfl
@[simp] theorem writeRate_toggle (v : RegValue) (s : State) : (writeRate v s).toggle = s.toggle := rfl
@[simp] theorem writeRate_sr (v : RegValue) (s : State) : (writeRate v s).sr = s.sr := rfl
@[simp] theorem writeRate_len (v : RegValue) (s : State) : (writeRate v s).len = s.len := rfl
@[simp] theorem writeRate_tc (v : RegValue) (s : State) : (writeRate v s).tc = s.tc := rfl
@[simp] theorem writeRate_synced (v : RegValue) (s : State) : (writeRate v s).synced = s.synced := rfl
@[simp] theorem writeRate_ubits (v : RegValue) (s : State) : (writeRate v s).ubits = s.ubits := rfl
@[simp] theorem writeRate_flags (v : RegValue) (s : State) : (writeRate v s).flags = s.flags := rfl
@[simp] theorem writeRate_segOpen (v : RegValue) (s : State) : (writeRate v s).segOpen = s.segOpen := rfl
@[simp] theorem writeRate_prevTc (v : RegValue) (s : State) : (writeRate v s).prevTc = s.prevTc := rfl
@[simp] theorem writeRate_segStart (v : RegValue) (s : State) : (writeRate v s).segStart = s.segStart := rfl
@[simp] theorem writeRate_lastIdx (v : RegValue) (s : State) : (writeRate v s).lastIdx = s.lastIdx := rfl
@[simp] theorem writeRate_seen (v : RegValue) (s : State) : (writeRate v s).seen = s.seen := rfl
@[simp] theorem writeRate_srcid (v : RegValue) (s : State) : (writeRate v s).srcid = s.srcid := rfl
@[simp] theorem writeRate_rate (v : RegValue) (s : State) : (writeRate v s).rate = v.extractLsb' 0 16 := rfl
@[simp] theorem writeRate_strict (v : RegValue) (s : State) : (writeRate v s).strict = s.strict := rfl
@[simp] theorem writeRate_ffMax (v : RegValue) (s : State) : (writeRate v s).ffMax = s.ffMax := rfl
@[simp] theorem writeRate_malformed (v : RegValue) (s : State) : (writeRate v s).malformed = s.malformed := rfl
@[simp] theorem writeRate_fIllcmd (v : RegValue) (s : State) : (writeRate v s).fIllcmd = s.fIllcmd := rfl
@[simp] theorem writeRate_fIllreg (v : RegValue) (s : State) : (writeRate v s).fIllreg = s.fIllreg := rfl
@[simp] theorem writeRate_fBadtc (v : RegValue) (s : State) : (writeRate v s).fBadtc = s.fBadtc := rfl
@[simp] theorem writeRate_fOrder (v : RegValue) (s : State) : (writeRate v s).fOrder = s.fOrder := rfl
@[simp] theorem writeRate_fcode (v : RegValue) (s : State) : (writeRate v s).fcode = s.fcode := rfl
@[simp] theorem writeRate_inputs (v : RegValue) (s : State) : (writeRate v s).inputs = s.inputs := rfl
@[simp] theorem writeRate_rspTrace (v : RegValue) (s : State) : (writeRate v s).rspTrace = s.rspTrace := rfl
@[simp] theorem writeRate_evtTrace (v : RegValue) (s : State) : (writeRate v s).evtTrace = s.evtTrace := rfl
@[simp] theorem writeRate_segTrace (v : RegValue) (s : State) : (writeRate v s).segTrace = s.segTrace := rfl

/-! ### `updateLatch` -/

@[simp] theorem updateLatch_lastPol (frame : Frame) (s : State) : (updateLatch frame s).lastPol = s.lastPol := rfl
@[simp] theorem updateLatch_run (frame : Frame) (s : State) : (updateLatch frame s).run = s.run := rfl
@[simp] theorem updateLatch_toggle (frame : Frame) (s : State) : (updateLatch frame s).toggle = s.toggle := rfl
@[simp] theorem updateLatch_sr (frame : Frame) (s : State) : (updateLatch frame s).sr = s.sr := rfl
@[simp] theorem updateLatch_len (frame : Frame) (s : State) : (updateLatch frame s).len = s.len := rfl
@[simp] theorem updateLatch_tc (frame : Frame) (s : State) : (updateLatch frame s).tc = frameTimecode frame := rfl
@[simp] theorem updateLatch_synced (frame : Frame) (s : State) : (updateLatch frame s).synced = true := rfl
@[simp] theorem updateLatch_ubits (frame : Frame) (s : State) : (updateLatch frame s).ubits = userBits frame := rfl
@[simp] theorem updateLatch_flags (frame : Frame) (s : State) : (updateLatch frame s).flags = flagBits frame := rfl
@[simp] theorem updateLatch_segOpen (frame : Frame) (s : State) : (updateLatch frame s).segOpen = s.segOpen := rfl
@[simp] theorem updateLatch_prevTc (frame : Frame) (s : State) : (updateLatch frame s).prevTc = s.prevTc := rfl
@[simp] theorem updateLatch_segStart (frame : Frame) (s : State) : (updateLatch frame s).segStart = s.segStart := rfl
@[simp] theorem updateLatch_lastIdx (frame : Frame) (s : State) : (updateLatch frame s).lastIdx = s.lastIdx := rfl
@[simp] theorem updateLatch_seen (frame : Frame) (s : State) : (updateLatch frame s).seen = s.seen := rfl
@[simp] theorem updateLatch_srcid (frame : Frame) (s : State) : (updateLatch frame s).srcid = s.srcid := rfl
@[simp] theorem updateLatch_rate (frame : Frame) (s : State) : (updateLatch frame s).rate = s.rate := rfl
@[simp] theorem updateLatch_strict (frame : Frame) (s : State) : (updateLatch frame s).strict = s.strict := rfl
@[simp] theorem updateLatch_ffMax (frame : Frame) (s : State) : (updateLatch frame s).ffMax = s.ffMax := rfl
@[simp] theorem updateLatch_malformed (frame : Frame) (s : State) : (updateLatch frame s).malformed = s.malformed := rfl
@[simp] theorem updateLatch_fIllcmd (frame : Frame) (s : State) : (updateLatch frame s).fIllcmd = s.fIllcmd := rfl
@[simp] theorem updateLatch_fIllreg (frame : Frame) (s : State) : (updateLatch frame s).fIllreg = s.fIllreg := rfl
@[simp] theorem updateLatch_fBadtc (frame : Frame) (s : State) : (updateLatch frame s).fBadtc = s.fBadtc := rfl
@[simp] theorem updateLatch_fOrder (frame : Frame) (s : State) : (updateLatch frame s).fOrder = s.fOrder := rfl
@[simp] theorem updateLatch_fcode (frame : Frame) (s : State) : (updateLatch frame s).fcode = s.fcode := rfl
@[simp] theorem updateLatch_inputs (frame : Frame) (s : State) : (updateLatch frame s).inputs = s.inputs := rfl
@[simp] theorem updateLatch_rspTrace (frame : Frame) (s : State) : (updateLatch frame s).rspTrace = s.rspTrace := rfl
@[simp] theorem updateLatch_evtTrace (frame : Frame) (s : State) : (updateLatch frame s).evtTrace = s.evtTrace := rfl
@[simp] theorem updateLatch_segTrace (frame : Frame) (s : State) : (updateLatch frame s).segTrace = s.segTrace := rfl

/-! ### `markMalformed` -/

@[simp] theorem markMalformed_lastPol (s : State) : (markMalformed s).lastPol = s.lastPol := rfl
@[simp] theorem markMalformed_run (s : State) : (markMalformed s).run = s.run := rfl
@[simp] theorem markMalformed_toggle (s : State) : (markMalformed s).toggle = s.toggle := rfl
@[simp] theorem markMalformed_sr (s : State) : (markMalformed s).sr = s.sr := rfl
@[simp] theorem markMalformed_len (s : State) : (markMalformed s).len = s.len := rfl
@[simp] theorem markMalformed_tc (s : State) : (markMalformed s).tc = s.tc := rfl
@[simp] theorem markMalformed_synced (s : State) : (markMalformed s).synced = s.synced := rfl
@[simp] theorem markMalformed_ubits (s : State) : (markMalformed s).ubits = s.ubits := rfl
@[simp] theorem markMalformed_flags (s : State) : (markMalformed s).flags = s.flags := rfl
@[simp] theorem markMalformed_segOpen (s : State) : (markMalformed s).segOpen = s.segOpen := rfl
@[simp] theorem markMalformed_prevTc (s : State) : (markMalformed s).prevTc = s.prevTc := rfl
@[simp] theorem markMalformed_segStart (s : State) : (markMalformed s).segStart = s.segStart := rfl
@[simp] theorem markMalformed_lastIdx (s : State) : (markMalformed s).lastIdx = s.lastIdx := rfl
@[simp] theorem markMalformed_seen (s : State) : (markMalformed s).seen = s.seen := rfl
@[simp] theorem markMalformed_srcid (s : State) : (markMalformed s).srcid = s.srcid := rfl
@[simp] theorem markMalformed_rate (s : State) : (markMalformed s).rate = s.rate := rfl
@[simp] theorem markMalformed_strict (s : State) : (markMalformed s).strict = s.strict := rfl
@[simp] theorem markMalformed_ffMax (s : State) : (markMalformed s).ffMax = s.ffMax := rfl
@[simp] theorem markMalformed_malformed (s : State) : (markMalformed s).malformed = true := rfl
@[simp] theorem markMalformed_fIllcmd (s : State) : (markMalformed s).fIllcmd = s.fIllcmd := rfl
@[simp] theorem markMalformed_fIllreg (s : State) : (markMalformed s).fIllreg = s.fIllreg := rfl
@[simp] theorem markMalformed_fBadtc (s : State) : (markMalformed s).fBadtc = s.fBadtc := rfl
@[simp] theorem markMalformed_fOrder (s : State) : (markMalformed s).fOrder = s.fOrder := rfl
@[simp] theorem markMalformed_fcode (s : State) : (markMalformed s).fcode = s.fcode := rfl
@[simp] theorem markMalformed_inputs (s : State) : (markMalformed s).inputs = s.inputs := rfl
@[simp] theorem markMalformed_rspTrace (s : State) : (markMalformed s).rspTrace = s.rspTrace := rfl
@[simp] theorem markMalformed_evtTrace (s : State) : (markMalformed s).evtTrace = s.evtTrace := rfl
@[simp] theorem markMalformed_segTrace (s : State) : (markMalformed s).segTrace = s.segTrace := rfl

/-! ### `appendBit` -/

@[simp] theorem appendBit_lastPol (b : Bool) (s : State) : (appendBit b s).lastPol = s.lastPol := rfl
@[simp] theorem appendBit_run (b : Bool) (s : State) : (appendBit b s).run = s.run := rfl
@[simp] theorem appendBit_toggle (b : Bool) (s : State) : (appendBit b s).toggle = s.toggle := rfl
@[simp] theorem appendBit_sr (b : Bool) (s : State) : (appendBit b s).sr = shiftIn b s.sr := rfl
@[simp] theorem appendBit_len (b : Bool) (s : State) : (appendBit b s).len = nextLen s.len := rfl
@[simp] theorem appendBit_tc (b : Bool) (s : State) : (appendBit b s).tc = s.tc := rfl
@[simp] theorem appendBit_synced (b : Bool) (s : State) : (appendBit b s).synced = s.synced := rfl
@[simp] theorem appendBit_ubits (b : Bool) (s : State) : (appendBit b s).ubits = s.ubits := rfl
@[simp] theorem appendBit_flags (b : Bool) (s : State) : (appendBit b s).flags = s.flags := rfl
@[simp] theorem appendBit_segOpen (b : Bool) (s : State) : (appendBit b s).segOpen = s.segOpen := rfl
@[simp] theorem appendBit_prevTc (b : Bool) (s : State) : (appendBit b s).prevTc = s.prevTc := rfl
@[simp] theorem appendBit_segStart (b : Bool) (s : State) : (appendBit b s).segStart = s.segStart := rfl
@[simp] theorem appendBit_lastIdx (b : Bool) (s : State) : (appendBit b s).lastIdx = s.lastIdx := rfl
@[simp] theorem appendBit_seen (b : Bool) (s : State) : (appendBit b s).seen = s.seen := rfl
@[simp] theorem appendBit_srcid (b : Bool) (s : State) : (appendBit b s).srcid = s.srcid := rfl
@[simp] theorem appendBit_rate (b : Bool) (s : State) : (appendBit b s).rate = s.rate := rfl
@[simp] theorem appendBit_strict (b : Bool) (s : State) : (appendBit b s).strict = s.strict := rfl
@[simp] theorem appendBit_ffMax (b : Bool) (s : State) : (appendBit b s).ffMax = s.ffMax := rfl
@[simp] theorem appendBit_malformed (b : Bool) (s : State) : (appendBit b s).malformed = s.malformed := rfl
@[simp] theorem appendBit_fIllcmd (b : Bool) (s : State) : (appendBit b s).fIllcmd = s.fIllcmd := rfl
@[simp] theorem appendBit_fIllreg (b : Bool) (s : State) : (appendBit b s).fIllreg = s.fIllreg := rfl
@[simp] theorem appendBit_fBadtc (b : Bool) (s : State) : (appendBit b s).fBadtc = s.fBadtc := rfl
@[simp] theorem appendBit_fOrder (b : Bool) (s : State) : (appendBit b s).fOrder = s.fOrder := rfl
@[simp] theorem appendBit_fcode (b : Bool) (s : State) : (appendBit b s).fcode = s.fcode := rfl
@[simp] theorem appendBit_inputs (b : Bool) (s : State) : (appendBit b s).inputs = s.inputs := rfl
@[simp] theorem appendBit_rspTrace (b : Bool) (s : State) : (appendBit b s).rspTrace = s.rspTrace := rfl
@[simp] theorem appendBit_evtTrace (b : Bool) (s : State) : (appendBit b s).evtTrace = s.evtTrace := rfl
@[simp] theorem appendBit_segTrace (b : Bool) (s : State) : (appendBit b s).segTrace = s.segTrace := rfl

/-! ### `setToggle` -/

@[simp] theorem setToggle_lastPol (b : Bool) (s : State) : (setToggle b s).lastPol = s.lastPol := rfl
@[simp] theorem setToggle_run (b : Bool) (s : State) : (setToggle b s).run = s.run := rfl
@[simp] theorem setToggle_toggle (b : Bool) (s : State) : (setToggle b s).toggle = b := rfl
@[simp] theorem setToggle_sr (b : Bool) (s : State) : (setToggle b s).sr = s.sr := rfl
@[simp] theorem setToggle_len (b : Bool) (s : State) : (setToggle b s).len = s.len := rfl
@[simp] theorem setToggle_tc (b : Bool) (s : State) : (setToggle b s).tc = s.tc := rfl
@[simp] theorem setToggle_synced (b : Bool) (s : State) : (setToggle b s).synced = s.synced := rfl
@[simp] theorem setToggle_ubits (b : Bool) (s : State) : (setToggle b s).ubits = s.ubits := rfl
@[simp] theorem setToggle_flags (b : Bool) (s : State) : (setToggle b s).flags = s.flags := rfl
@[simp] theorem setToggle_segOpen (b : Bool) (s : State) : (setToggle b s).segOpen = s.segOpen := rfl
@[simp] theorem setToggle_prevTc (b : Bool) (s : State) : (setToggle b s).prevTc = s.prevTc := rfl
@[simp] theorem setToggle_segStart (b : Bool) (s : State) : (setToggle b s).segStart = s.segStart := rfl
@[simp] theorem setToggle_lastIdx (b : Bool) (s : State) : (setToggle b s).lastIdx = s.lastIdx := rfl
@[simp] theorem setToggle_seen (b : Bool) (s : State) : (setToggle b s).seen = s.seen := rfl
@[simp] theorem setToggle_srcid (b : Bool) (s : State) : (setToggle b s).srcid = s.srcid := rfl
@[simp] theorem setToggle_rate (b : Bool) (s : State) : (setToggle b s).rate = s.rate := rfl
@[simp] theorem setToggle_strict (b : Bool) (s : State) : (setToggle b s).strict = s.strict := rfl
@[simp] theorem setToggle_ffMax (b : Bool) (s : State) : (setToggle b s).ffMax = s.ffMax := rfl
@[simp] theorem setToggle_malformed (b : Bool) (s : State) : (setToggle b s).malformed = s.malformed := rfl
@[simp] theorem setToggle_fIllcmd (b : Bool) (s : State) : (setToggle b s).fIllcmd = s.fIllcmd := rfl
@[simp] theorem setToggle_fIllreg (b : Bool) (s : State) : (setToggle b s).fIllreg = s.fIllreg := rfl
@[simp] theorem setToggle_fBadtc (b : Bool) (s : State) : (setToggle b s).fBadtc = s.fBadtc := rfl
@[simp] theorem setToggle_fOrder (b : Bool) (s : State) : (setToggle b s).fOrder = s.fOrder := rfl
@[simp] theorem setToggle_fcode (b : Bool) (s : State) : (setToggle b s).fcode = s.fcode := rfl
@[simp] theorem setToggle_inputs (b : Bool) (s : State) : (setToggle b s).inputs = s.inputs := rfl
@[simp] theorem setToggle_rspTrace (b : Bool) (s : State) : (setToggle b s).rspTrace = s.rspTrace := rfl
@[simp] theorem setToggle_evtTrace (b : Bool) (s : State) : (setToggle b s).evtTrace = s.evtTrace := rfl
@[simp] theorem setToggle_segTrace (b : Bool) (s : State) : (setToggle b s).segTrace = s.segTrace := rfl

/-! ### `countRun` -/

@[simp] theorem countRun_lastPol (s : State) : (countRun s).lastPol = s.lastPol := rfl
@[simp] theorem countRun_run (s : State) : (countRun s).run = nextRun s.run := rfl
@[simp] theorem countRun_toggle (s : State) : (countRun s).toggle = s.toggle := rfl
@[simp] theorem countRun_sr (s : State) : (countRun s).sr = s.sr := rfl
@[simp] theorem countRun_len (s : State) : (countRun s).len = s.len := rfl
@[simp] theorem countRun_tc (s : State) : (countRun s).tc = s.tc := rfl
@[simp] theorem countRun_synced (s : State) : (countRun s).synced = s.synced := rfl
@[simp] theorem countRun_ubits (s : State) : (countRun s).ubits = s.ubits := rfl
@[simp] theorem countRun_flags (s : State) : (countRun s).flags = s.flags := rfl
@[simp] theorem countRun_segOpen (s : State) : (countRun s).segOpen = s.segOpen := rfl
@[simp] theorem countRun_prevTc (s : State) : (countRun s).prevTc = s.prevTc := rfl
@[simp] theorem countRun_segStart (s : State) : (countRun s).segStart = s.segStart := rfl
@[simp] theorem countRun_lastIdx (s : State) : (countRun s).lastIdx = s.lastIdx := rfl
@[simp] theorem countRun_seen (s : State) : (countRun s).seen = s.seen := rfl
@[simp] theorem countRun_srcid (s : State) : (countRun s).srcid = s.srcid := rfl
@[simp] theorem countRun_rate (s : State) : (countRun s).rate = s.rate := rfl
@[simp] theorem countRun_strict (s : State) : (countRun s).strict = s.strict := rfl
@[simp] theorem countRun_ffMax (s : State) : (countRun s).ffMax = s.ffMax := rfl
@[simp] theorem countRun_malformed (s : State) : (countRun s).malformed = s.malformed := rfl
@[simp] theorem countRun_fIllcmd (s : State) : (countRun s).fIllcmd = s.fIllcmd := rfl
@[simp] theorem countRun_fIllreg (s : State) : (countRun s).fIllreg = s.fIllreg := rfl
@[simp] theorem countRun_fBadtc (s : State) : (countRun s).fBadtc = s.fBadtc := rfl
@[simp] theorem countRun_fOrder (s : State) : (countRun s).fOrder = s.fOrder := rfl
@[simp] theorem countRun_fcode (s : State) : (countRun s).fcode = s.fcode := rfl
@[simp] theorem countRun_inputs (s : State) : (countRun s).inputs = s.inputs := rfl
@[simp] theorem countRun_rspTrace (s : State) : (countRun s).rspTrace = s.rspTrace := rfl
@[simp] theorem countRun_evtTrace (s : State) : (countRun s).evtTrace = s.evtTrace := rfl
@[simp] theorem countRun_segTrace (s : State) : (countRun s).segTrace = s.segTrace := rfl

/-! ### `startRun` -/

@[simp] theorem startRun_lastPol (p : Polarity) (s : State) : (startRun p s).lastPol = some p := rfl
@[simp] theorem startRun_run (p : Polarity) (s : State) : (startRun p s).run = 1#4 := rfl
@[simp] theorem startRun_toggle (p : Polarity) (s : State) : (startRun p s).toggle = s.toggle := rfl
@[simp] theorem startRun_sr (p : Polarity) (s : State) : (startRun p s).sr = s.sr := rfl
@[simp] theorem startRun_len (p : Polarity) (s : State) : (startRun p s).len = s.len := rfl
@[simp] theorem startRun_tc (p : Polarity) (s : State) : (startRun p s).tc = s.tc := rfl
@[simp] theorem startRun_synced (p : Polarity) (s : State) : (startRun p s).synced = s.synced := rfl
@[simp] theorem startRun_ubits (p : Polarity) (s : State) : (startRun p s).ubits = s.ubits := rfl
@[simp] theorem startRun_flags (p : Polarity) (s : State) : (startRun p s).flags = s.flags := rfl
@[simp] theorem startRun_segOpen (p : Polarity) (s : State) : (startRun p s).segOpen = s.segOpen := rfl
@[simp] theorem startRun_prevTc (p : Polarity) (s : State) : (startRun p s).prevTc = s.prevTc := rfl
@[simp] theorem startRun_segStart (p : Polarity) (s : State) : (startRun p s).segStart = s.segStart := rfl
@[simp] theorem startRun_lastIdx (p : Polarity) (s : State) : (startRun p s).lastIdx = s.lastIdx := rfl
@[simp] theorem startRun_seen (p : Polarity) (s : State) : (startRun p s).seen = s.seen := rfl
@[simp] theorem startRun_srcid (p : Polarity) (s : State) : (startRun p s).srcid = s.srcid := rfl
@[simp] theorem startRun_rate (p : Polarity) (s : State) : (startRun p s).rate = s.rate := rfl
@[simp] theorem startRun_strict (p : Polarity) (s : State) : (startRun p s).strict = s.strict := rfl
@[simp] theorem startRun_ffMax (p : Polarity) (s : State) : (startRun p s).ffMax = s.ffMax := rfl
@[simp] theorem startRun_malformed (p : Polarity) (s : State) : (startRun p s).malformed = s.malformed := rfl
@[simp] theorem startRun_fIllcmd (p : Polarity) (s : State) : (startRun p s).fIllcmd = s.fIllcmd := rfl
@[simp] theorem startRun_fIllreg (p : Polarity) (s : State) : (startRun p s).fIllreg = s.fIllreg := rfl
@[simp] theorem startRun_fBadtc (p : Polarity) (s : State) : (startRun p s).fBadtc = s.fBadtc := rfl
@[simp] theorem startRun_fOrder (p : Polarity) (s : State) : (startRun p s).fOrder = s.fOrder := rfl
@[simp] theorem startRun_fcode (p : Polarity) (s : State) : (startRun p s).fcode = s.fcode := rfl
@[simp] theorem startRun_inputs (p : Polarity) (s : State) : (startRun p s).inputs = s.inputs := rfl
@[simp] theorem startRun_rspTrace (p : Polarity) (s : State) : (startRun p s).rspTrace = s.rspTrace := rfl
@[simp] theorem startRun_evtTrace (p : Polarity) (s : State) : (startRun p s).evtTrace = s.evtTrace := rfl
@[simp] theorem startRun_segTrace (p : Polarity) (s : State) : (startRun p s).segTrace = s.segTrace := rfl

/-! ### `beginSegment` -/

@[simp] theorem beginSegment_lastPol (t : Timecode) (idx : Index) (s : State) : (beginSegment t idx s).lastPol = s.lastPol := rfl
@[simp] theorem beginSegment_run (t : Timecode) (idx : Index) (s : State) : (beginSegment t idx s).run = s.run := rfl
@[simp] theorem beginSegment_toggle (t : Timecode) (idx : Index) (s : State) : (beginSegment t idx s).toggle = s.toggle := rfl
@[simp] theorem beginSegment_sr (t : Timecode) (idx : Index) (s : State) : (beginSegment t idx s).sr = s.sr := rfl
@[simp] theorem beginSegment_len (t : Timecode) (idx : Index) (s : State) : (beginSegment t idx s).len = s.len := rfl
@[simp] theorem beginSegment_tc (t : Timecode) (idx : Index) (s : State) : (beginSegment t idx s).tc = s.tc := rfl
@[simp] theorem beginSegment_synced (t : Timecode) (idx : Index) (s : State) : (beginSegment t idx s).synced = s.synced := rfl
@[simp] theorem beginSegment_ubits (t : Timecode) (idx : Index) (s : State) : (beginSegment t idx s).ubits = s.ubits := rfl
@[simp] theorem beginSegment_flags (t : Timecode) (idx : Index) (s : State) : (beginSegment t idx s).flags = s.flags := rfl
@[simp] theorem beginSegment_segOpen (t : Timecode) (idx : Index) (s : State) : (beginSegment t idx s).segOpen = true := rfl
@[simp] theorem beginSegment_prevTc (t : Timecode) (idx : Index) (s : State) : (beginSegment t idx s).prevTc = t := rfl
@[simp] theorem beginSegment_segStart (t : Timecode) (idx : Index) (s : State) : (beginSegment t idx s).segStart = idx := rfl
@[simp] theorem beginSegment_lastIdx (t : Timecode) (idx : Index) (s : State) : (beginSegment t idx s).lastIdx = s.lastIdx := rfl
@[simp] theorem beginSegment_seen (t : Timecode) (idx : Index) (s : State) : (beginSegment t idx s).seen = s.seen := rfl
@[simp] theorem beginSegment_srcid (t : Timecode) (idx : Index) (s : State) : (beginSegment t idx s).srcid = s.srcid := rfl
@[simp] theorem beginSegment_rate (t : Timecode) (idx : Index) (s : State) : (beginSegment t idx s).rate = s.rate := rfl
@[simp] theorem beginSegment_strict (t : Timecode) (idx : Index) (s : State) : (beginSegment t idx s).strict = s.strict := rfl
@[simp] theorem beginSegment_ffMax (t : Timecode) (idx : Index) (s : State) : (beginSegment t idx s).ffMax = s.ffMax := rfl
@[simp] theorem beginSegment_malformed (t : Timecode) (idx : Index) (s : State) : (beginSegment t idx s).malformed = s.malformed := rfl
@[simp] theorem beginSegment_fIllcmd (t : Timecode) (idx : Index) (s : State) : (beginSegment t idx s).fIllcmd = s.fIllcmd := rfl
@[simp] theorem beginSegment_fIllreg (t : Timecode) (idx : Index) (s : State) : (beginSegment t idx s).fIllreg = s.fIllreg := rfl
@[simp] theorem beginSegment_fBadtc (t : Timecode) (idx : Index) (s : State) : (beginSegment t idx s).fBadtc = s.fBadtc := rfl
@[simp] theorem beginSegment_fOrder (t : Timecode) (idx : Index) (s : State) : (beginSegment t idx s).fOrder = s.fOrder := rfl
@[simp] theorem beginSegment_fcode (t : Timecode) (idx : Index) (s : State) : (beginSegment t idx s).fcode = s.fcode := rfl
@[simp] theorem beginSegment_inputs (t : Timecode) (idx : Index) (s : State) : (beginSegment t idx s).inputs = s.inputs := rfl
@[simp] theorem beginSegment_rspTrace (t : Timecode) (idx : Index) (s : State) : (beginSegment t idx s).rspTrace = s.rspTrace := rfl
@[simp] theorem beginSegment_evtTrace (t : Timecode) (idx : Index) (s : State) : (beginSegment t idx s).evtTrace = s.evtTrace := rfl
@[simp] theorem beginSegment_segTrace (t : Timecode) (idx : Index) (s : State) : (beginSegment t idx s).segTrace = s.segTrace := rfl

/-! ### `noteIndex` -/

@[simp] theorem noteIndex_lastPol (idx : Index) (s : State) : (noteIndex idx s).lastPol = s.lastPol := rfl
@[simp] theorem noteIndex_run (idx : Index) (s : State) : (noteIndex idx s).run = s.run := rfl
@[simp] theorem noteIndex_toggle (idx : Index) (s : State) : (noteIndex idx s).toggle = s.toggle := rfl
@[simp] theorem noteIndex_sr (idx : Index) (s : State) : (noteIndex idx s).sr = s.sr := rfl
@[simp] theorem noteIndex_len (idx : Index) (s : State) : (noteIndex idx s).len = s.len := rfl
@[simp] theorem noteIndex_tc (idx : Index) (s : State) : (noteIndex idx s).tc = s.tc := rfl
@[simp] theorem noteIndex_synced (idx : Index) (s : State) : (noteIndex idx s).synced = s.synced := rfl
@[simp] theorem noteIndex_ubits (idx : Index) (s : State) : (noteIndex idx s).ubits = s.ubits := rfl
@[simp] theorem noteIndex_flags (idx : Index) (s : State) : (noteIndex idx s).flags = s.flags := rfl
@[simp] theorem noteIndex_segOpen (idx : Index) (s : State) : (noteIndex idx s).segOpen = s.segOpen := rfl
@[simp] theorem noteIndex_prevTc (idx : Index) (s : State) : (noteIndex idx s).prevTc = s.prevTc := rfl
@[simp] theorem noteIndex_segStart (idx : Index) (s : State) : (noteIndex idx s).segStart = s.segStart := rfl
@[simp] theorem noteIndex_lastIdx (idx : Index) (s : State) : (noteIndex idx s).lastIdx = idx := rfl
@[simp] theorem noteIndex_seen (idx : Index) (s : State) : (noteIndex idx s).seen = true := rfl
@[simp] theorem noteIndex_srcid (idx : Index) (s : State) : (noteIndex idx s).srcid = s.srcid := rfl
@[simp] theorem noteIndex_rate (idx : Index) (s : State) : (noteIndex idx s).rate = s.rate := rfl
@[simp] theorem noteIndex_strict (idx : Index) (s : State) : (noteIndex idx s).strict = s.strict := rfl
@[simp] theorem noteIndex_ffMax (idx : Index) (s : State) : (noteIndex idx s).ffMax = s.ffMax := rfl
@[simp] theorem noteIndex_malformed (idx : Index) (s : State) : (noteIndex idx s).malformed = s.malformed := rfl
@[simp] theorem noteIndex_fIllcmd (idx : Index) (s : State) : (noteIndex idx s).fIllcmd = s.fIllcmd := rfl
@[simp] theorem noteIndex_fIllreg (idx : Index) (s : State) : (noteIndex idx s).fIllreg = s.fIllreg := rfl
@[simp] theorem noteIndex_fBadtc (idx : Index) (s : State) : (noteIndex idx s).fBadtc = s.fBadtc := rfl
@[simp] theorem noteIndex_fOrder (idx : Index) (s : State) : (noteIndex idx s).fOrder = s.fOrder := rfl
@[simp] theorem noteIndex_fcode (idx : Index) (s : State) : (noteIndex idx s).fcode = s.fcode := rfl
@[simp] theorem noteIndex_inputs (idx : Index) (s : State) : (noteIndex idx s).inputs = s.inputs := rfl
@[simp] theorem noteIndex_rspTrace (idx : Index) (s : State) : (noteIndex idx s).rspTrace = s.rspTrace := rfl
@[simp] theorem noteIndex_evtTrace (idx : Index) (s : State) : (noteIndex idx s).evtTrace = s.evtTrace := rfl
@[simp] theorem noteIndex_segTrace (idx : Index) (s : State) : (noteIndex idx s).segTrace = s.segTrace := rfl

/-! ### `withInputs` -/

@[simp] theorem withInputs_lastPol (ps : List Pins) (s : State) : (withInputs ps s).lastPol = s.lastPol := rfl
@[simp] theorem withInputs_run (ps : List Pins) (s : State) : (withInputs ps s).run = s.run := rfl
@[simp] theorem withInputs_toggle (ps : List Pins) (s : State) : (withInputs ps s).toggle = s.toggle := rfl
@[simp] theorem withInputs_sr (ps : List Pins) (s : State) : (withInputs ps s).sr = s.sr := rfl
@[simp] theorem withInputs_len (ps : List Pins) (s : State) : (withInputs ps s).len = s.len := rfl
@[simp] theorem withInputs_tc (ps : List Pins) (s : State) : (withInputs ps s).tc = s.tc := rfl
@[simp] theorem withInputs_synced (ps : List Pins) (s : State) : (withInputs ps s).synced = s.synced := rfl
@[simp] theorem withInputs_ubits (ps : List Pins) (s : State) : (withInputs ps s).ubits = s.ubits := rfl
@[simp] theorem withInputs_flags (ps : List Pins) (s : State) : (withInputs ps s).flags = s.flags := rfl
@[simp] theorem withInputs_segOpen (ps : List Pins) (s : State) : (withInputs ps s).segOpen = s.segOpen := rfl
@[simp] theorem withInputs_prevTc (ps : List Pins) (s : State) : (withInputs ps s).prevTc = s.prevTc := rfl
@[simp] theorem withInputs_segStart (ps : List Pins) (s : State) : (withInputs ps s).segStart = s.segStart := rfl
@[simp] theorem withInputs_lastIdx (ps : List Pins) (s : State) : (withInputs ps s).lastIdx = s.lastIdx := rfl
@[simp] theorem withInputs_seen (ps : List Pins) (s : State) : (withInputs ps s).seen = s.seen := rfl
@[simp] theorem withInputs_srcid (ps : List Pins) (s : State) : (withInputs ps s).srcid = s.srcid := rfl
@[simp] theorem withInputs_rate (ps : List Pins) (s : State) : (withInputs ps s).rate = s.rate := rfl
@[simp] theorem withInputs_strict (ps : List Pins) (s : State) : (withInputs ps s).strict = s.strict := rfl
@[simp] theorem withInputs_ffMax (ps : List Pins) (s : State) : (withInputs ps s).ffMax = s.ffMax := rfl
@[simp] theorem withInputs_malformed (ps : List Pins) (s : State) : (withInputs ps s).malformed = s.malformed := rfl
@[simp] theorem withInputs_fIllcmd (ps : List Pins) (s : State) : (withInputs ps s).fIllcmd = s.fIllcmd := rfl
@[simp] theorem withInputs_fIllreg (ps : List Pins) (s : State) : (withInputs ps s).fIllreg = s.fIllreg := rfl
@[simp] theorem withInputs_fBadtc (ps : List Pins) (s : State) : (withInputs ps s).fBadtc = s.fBadtc := rfl
@[simp] theorem withInputs_fOrder (ps : List Pins) (s : State) : (withInputs ps s).fOrder = s.fOrder := rfl
@[simp] theorem withInputs_fcode (ps : List Pins) (s : State) : (withInputs ps s).fcode = s.fcode := rfl
@[simp] theorem withInputs_inputs (ps : List Pins) (s : State) : (withInputs ps s).inputs = ps := rfl
@[simp] theorem withInputs_rspTrace (ps : List Pins) (s : State) : (withInputs ps s).rspTrace = s.rspTrace := rfl
@[simp] theorem withInputs_evtTrace (ps : List Pins) (s : State) : (withInputs ps s).evtTrace = s.evtTrace := rfl
@[simp] theorem withInputs_segTrace (ps : List Pins) (s : State) : (withInputs ps s).segTrace = s.segTrace := rfl

end Sys2Proof.Laws
end

