-- ==== Sys2Proof/Tests/Slice0.lean ====
section
/-! SUPPORT. The model's own tests: expected values from spec/95_test_vectors.md (named by vector) or worked from the
rules by hand, and a witness for the hypotheses of every statement of Certificates/Slice0/Obligations.lean. -/

open Sys2Proof Sys2Proof.Machine

namespace Sys2Proof.Tests

/-- The state a next outcome holds. -/
def nextOf : Host.Outcome State Fault Refusal → State
  | .next s => s
  | .fault _ => State.reset
  | .refused _ => State.reset

/-- One command. -/
def after (i : Instr) (s : State) : State := nextOf (exec i s)

/-- One step with a word presented. -/
def afterWord (w : Nat) (s : State) : State := nextOf (step (s.withFetchWord 72 w))

/-- The reset state with a run in progress. -/
def running (p : Polarity) (n : Nat) (toggle : Bool) : State :=
  { State.reset with lastPol := some p, run := BitVec.ofNat 4 n, toggle := toggle }

/-- A state one push before the last bit of the frame `F1`, with `n` bits accumulated (vectors V-S1 and V-S2). -/
def beforeF1 (n : Nat) : State :=
  { running .neg 10 true with sr := 0x7FF80002000400060008#80, len := BitVec.ofNat 7 n }

/-- The frame `F1` of 95_test_vectors.md. -/
def frameF1 : Frame := 0xBFFC0001000200030004#80

/-- The frame of vector V-P3, which the strict check rejects. -/
def frameBad : Frame := 0xBFFC8B7F6F5F4F3C271F#80

/-- The state one push before the last bit of `frameBad`. -/
def beforeBad (strict : Bool) : State :=
  { running .neg 10 true with sr := 0x7FF916FEDEBE9E784E3E#80, len := 80#7, strict := strict }

/-- The reset state with a segment open at 5, last observed at 8. -/
def opened : State :=
  { State.reset with segOpen := true, seen := true, prevTc := 0x01000000#32, segStart := 5#32, lastIdx := 8#32 }

/-! ## Well-formedness and encoding -/

theorem test_wf_refuses_each_bad_digit :
    ([0xA0000000#32, 0x0A000000#32, 0x00A00000#32, 0x000A0000#32, 0x0000A000#32, 0x00000A00#32, 0x000000A0#32,
      0x0000000A#32].all fun t => !(Instr.obs t 0#32).wf) = true := by decide
theorem test_wf_accepts_nines : (Instr.obs 0x99999999#32 0#32).wf = true := by decide
theorem test_canonical_refuses_ignored_bits : canonicalWord 0x20ABCDEF0200000000#72 = false := by decide
theorem test_canonical_refuses_reserved : canonicalWord 0x040000000000000000#72 = false := by decide
/-- V-E1. -/
theorem test_decode_nop : decodeTableWord 72 0x000000000000000000 = some .nop := by decide
/-- V-E3. -/
theorem test_decode_sample : decodeTableWord 72 0x0100000000E000E000 = some (.sample 0xE000#16 0xE000#16) := by decide
/-- V-E6. -/
theorem test_decode_sample_order :
    decodeTableWord 72 0x010000000080007FFF = some (.sample 0x7FFF#16 0x8000#16) := by decide
/-- V-E7. -/
theorem test_decode_newpass : decodeTableWord 72 0x020000000000000000 = some .newpass := by decide
/-- V-E8. -/
theorem test_decode_srst : decodeTableWord 72 0x030000000000000000 = some .srst := by decide
/-- V-E9. -/
theorem test_decode_obs : decodeTableWord 72 0x10010000050000000A = some (.obs 0x01000005#32 10#32) := by decide
/-- R196, example. -/
theorem test_decode_obsl : decodeTableWord 72 0x110000000000000007 = some (.obsl 7#32) := by decide
/-- V-E11. -/
theorem test_decode_end : decodeTableWord 72 0x120000000000000000 = some .endInput := by decide
/-- V-E12. -/
theorem test_decode_endat : decodeTableWord 72 0x130000000000000013 = some (.endat 19#32) := by decide
/-- V-E16: `a[31:8]` is ignored. -/
theorem test_decode_rdreg : decodeTableWord 72 0x20ABCDEF0200000000 = some (.rdreg 0x02#8) := by decide
/-- V-E15. -/
theorem test_decode_wrreg : decodeTableWord 72 0x210000000600000019 = some (.wrreg 0x06#8 25#32) := by decide
/-- R88: the reserved opcodes next to the ten. -/
theorem test_decode_reserved :
    ([0x04, 0x0F, 0x14, 0x1F, 0x22, 0xFF].all fun op => decodeTableWord 72 (op * 2 ^ 64) = none) = true := by decide
/-- V-E5. -/
theorem test_encode_sample : encode (.sample 0xFFFF#16 0x0001#16) = 0x01000000000001FFFF#72 := by decide
/-- V-E14. -/
theorem test_encode_wrreg : encode (.wrreg 0x05#8 0xC0FFEE01#32) = 0x2100000005C0FFEE01#72 := by decide

/-! ## SAMPLE -/

/-- V-K1 to V-K8. -/
theorem test_classify :
    [classify 0#16 0#16, classify 1#16 0xFFFF#16, classify 0xFFFF#16 1#16, classify 0x7FFF#16 0x8000#16,
      classify 0#16 0x8000#16, classify 0x7FFF#16 0x7FFF#16, classify 0xFFFF#16 0xFFFF#16, classify 0#16 1#16] =
    [.pos, .neg, .neg, .neg, .neg, .pos, .neg, .pos] := by decide
/-- V-D2. -/
theorem test_short_run : after (sampleOf .neg) (running .pos 7 true) =
    { running .neg 1 false with sr := 0x80000000000000000000#80, len := 1#7 } := by decide
/-- V-D4. -/
theorem test_long_run : after (sampleOf .neg) (running .pos 15 true) = { running .neg 1 true with len := 1#7 } := by decide
/-- V-S1, the push that cuts. -/
theorem test_cut_latches : after (sampleOf .pos) (beforeF1 80) =
    { running .pos 1 false with tc := 0x01020304#32, synced := true, evtTrace := [.frame 0x01020304#32] } := by decide
/-- V-S2, the push that matches with 80 bits only. -/
theorem test_match_without_cut : after (sampleOf .pos) (beforeF1 79) =
    { running .pos 1 false with sr := 0xBFFC0001000200030004#80, len := 80#7 } := by decide
/-- V-P3. -/
theorem test_cut_rejected : after (sampleOf .pos) (beforeBad true) =
    { running .pos 1 false with malformed := true, evtTrace := [.malformed 0x45858245#32] } := by decide
/-- V-P3p. -/
theorem test_cut_permissive : after (sampleOf .pos) (beforeBad false) =
    { running .pos 1 false with
      strict := false, tc := 0x45858245#32, synced := true, ubits := 0x87654321#32, flags := 0b101101#6
      evtTrace := [.frame 0x45858245#32] } := by decide
/-- R101: the sync word in arrival order and as the newest 16 bits. -/
theorem test_sync_word : (List.range 16).map (fun i => Config.sync.getLsbD i) = Config.syncArrival := by decide
/-- V-P2. -/
theorem test_largest_frame : (frameTimecode 0xBFFC8273655945392619#80, userBits 0xBFFC8273655945392619#80,
    flagBits 0xBFFC8273655945392619#80) = (0x23595929#32, 0x87654321#32, 1#6) := by decide
/-- V-S6, the false frame. -/
theorem test_false_frame : (frameTimecode 0xBFFC6FFF000040008000#80, userBits 0xBFFC6FFF000040008000#80,
    flagBits 0xBFFC6FFF000040008000#80) = (0x45000000#32, 0x6F004080#32, 0b110000#6) := by decide
/-- V-P8 and V-P8b: frame numbers 25 and 24 against a bound of 24. -/
theorem test_frame_bound : (frameValid ⟨5, 2, 0, 0, 0, 0, 0, 1⟩ 24#6, frameValid ⟨4, 2, 0, 0, 0, 0, 0, 1⟩ 24#6) =
    (false, true) := by decide
/-- P1: 81 bits with 18 ones are 99 runs, 1620 samples. -/
theorem test_bmc_runs :
    ((bmcRuns 10 (false :: frameBits frameF1) .pos).length,
      ((bmcRuns 10 (false :: frameBits frameF1) .pos).map Prod.snd).sum) = (99, 1620) := by decide
/-- V-D19: NEWPASS after a long run. -/
theorem test_newpass : after .newpass (running .pos 15 false) = State.reset := by decide

/-! ## The aggregator -/

/-- V-A1. -/
theorem test_obs_opens : (statusWord (after (.obs 0x01000000#32 0#32) State.reset),
    (after (.obs 0x01000000#32 0#32) State.reset).segTrace) = (0x0000000A#32, []) := by decide
/-- V-A9. -/
theorem test_obs_repeated_index : after (.obs 0x01000001#32 8#32) opened =
    { opened with fOrder := true, fcode := 4#4, evtTrace := [.fault .order] } := by decide
/-- R196: the unsynced latch reads as the sentinel (V-A19). -/
theorem test_obsl_unsynced : after (.obsl 0#32) State.reset = { State.reset with seen := true } := by decide
/-- P6: an observation of the latch. -/
theorem test_obsl_opens : after (.obsl 1#32) { State.reset with tc := 0x01020304#32, synced := true } =
    { State.reset with tc := 0x01020304#32, synced := true, seen := true, lastIdx := 1#32, segOpen := true
                       prevTc := 0x01020304#32, segStart := 1#32 } := by decide
/-- V-A14: the count 2^32 wraps to 0. -/
theorem test_end_count_wraps :
    (after .endInput { opened with segStart := 0#32, lastIdx := 0xFFFFFFFF#32 }).segTrace.map SegRecord.count = [0#32] := by
  decide
/-- P2, the words of the two records. -/
theorem test_record_words :
    (SegRecord.pack ⟨0xC0FFEE01#32, 25#16, 0x01000000#32, 0x01000000#32, 0#32, 9#32, 10#32⟩,
      SegRecord.pack ⟨0xC0FFEE01#32, 25#16, 0x01000005#32, 0x01000005#32, 10#32, 14#32, 5#32⟩) =
    (0xC0FFEE010019010000000100000000000000000000090000000A#208,
      0xC0FFEE01001901000005010000050000000A0000000E00000005#208) := by decide
/-- R198, example: the last record of a source. -/
theorem test_end_record : (after .endInput { opened with srcid := 7#32, rate := 30#16 }).segTrace =
    [⟨7#32, 30#16, 0x01000000#32, 0x01000000#32, 5#32, 8#32, 4#32⟩] := by decide
/-- R199: an index before the last one; the segment stays open. -/
theorem test_endat_before_last : after (.endat 7#32) opened =
    { opened with fOrder := true, fcode := 4#4, evtTrace := [.fault .order] } := by decide
/-- R199, example. -/
theorem test_endat_record : (after (.endat 19#32) { opened with segStart := 10#32, lastIdx := 14#32 }).segTrace.map
    (fun r => (r.startIdx, r.endIdx, r.count)) = [(10#32, 19#32, 10#32)] := by decide

/-! ## Control commands and faults -/

/-- V-C6. -/
theorem test_nop : after .nop opened = opened := by decide
/-- V-F7: STATUS 0x0000048F before, 0 after. -/
theorem test_srst :
    (statusWord { opened with synced := true, malformed := true, fOrder := true, fcode := 4#4 },
      statusWord (after .srst { opened with synced := true, malformed := true, fOrder := true, fcode := 4#4 })) =
    (0x0000048F#32, 0#32) := by decide
/-- V-C1. -/
theorem test_rdreg_ctrl : (after (.rdreg 0x00#8) State.reset).rspTrace = [⟨false, 0x00002701#32⟩] := by decide
/-- V-F1. -/
theorem test_rdreg_unmapped : (statusWord (afterWord 0x200000000700000000 State.reset),
    (afterWord 0x200000000700000000 State.reset).rspTrace) = (0x00000220#32, [⟨true, 0#32⟩]) := by decide
/-- V-C2. -/
theorem test_wrreg_ctrl : ctrlWord (after (.wrreg 0x00#8 0xFFFFFFFF#32) State.reset) = 0x00003F01#32 := by decide
/-- V-F2. -/
theorem test_wrreg_read_only : statusWord (after (.wrreg 0x02#8 0x01020304#32) State.reset) = 0x00000220#32 := by decide
/-- V-F3. -/
theorem test_badtc : statusWord (afterWord 0x100A00000000000000 State.reset) = 0x00000340#32 := by decide
/-- V-F5: a bad digit and a stale index report BADTC only. -/
theorem test_badtc_before_order : (afterWord 0x100000000A00000005 opened).evtTrace = [.fault .badtc] := by decide
/-- V-F6: FCODE keeps the first fault. -/
theorem test_second_fault :
    statusWord (afterWord 0x040000000000000000 (afterWord 0x200000000700000000 State.reset)) = 0x00000230#32 := by decide
/-- R177: the three meanings of the latch. -/
theorem test_latch_status : [latchStatus State.reset, latchStatus { State.reset with malformed := true },
    latchStatus { State.reset with synced := true }] = [.noFrameYet, .allRejected, .synced 0#32] := by decide
/-- R116: the output signals of the step of V-F1. -/
theorem test_output_pins : outPins State.reset (afterWord 0x200000000700000000 State.reset) =
    { rsp := some ⟨true, 0#32⟩, evt := some (.fault .illreg), seg := none, tcQ := 0#32, syncedQ := false } := by decide

/-! ## Formats and text -/

/-- V-P12. -/
theorem test_fmt : fmt 0x01020304#32 =
    [0x30#8, 0x31#8, 0x3A#8, 0x30#8, 0x32#8, 0x3A#8, 0x30#8, 0x33#8, 0x3A#8, 0x30#8, 0x34#8] := by decide
/-- R62, R66: nine bytes are two pairs, little-endian, and one dropped. -/
theorem test_frame_buffer : frameBuffer [0x01#8, 0x02#8, 0x03#8, 0x04#8, 0xFF#8, 0x7F#8, 0x00#8, 0x80#8, 0x55#8] =
    [.sample 0x0201#16 0x0403#16, .sample 0x7FFF#16 0x8000#16] := by decide
/-- V-E9, from its text. -/
theorem test_assemble_obs :
    (assembleLine "OBS 01:00:00:05, 10 ; V-E9".toList).map (List.map encode) = some [0x10010000050000000A#72] := by decide
/-- V-E6 and V-E14, from their text. -/
theorem test_assemble_lines :
    (assemble ["SAMPLE 32767, -32768".toList, "WRREG SRCID, 0xC0FFEE01".toList, "PERMISSIVE".toList]).map (List.map encode) =
      some [0x010000000080007FFF#72, 0x2100000005C0FFEE01#72, 0x210000000000002700#72] := by decide

/-! ## Witnesses: states and operands that meet the hypotheses of the statements, each clause at boundary values -/

theorem witness_EncodeInvertsDecodeOnCanonicalWords :
    (decode 0x200000000200000000#72 = .instr (.rdreg 0x02#8) ∧ canonicalWord 0x200000000200000000#72 = true) ∧
      decode 0x20ABCDEF0200000000#72 = .instr (.rdreg 0x02#8) ∧ canonicalWord 0x20ABCDEF0200000000#72 = false := by decide
theorem witness_IgnoredBitsHaveNoEffect :
    (decode 0x200000000200000000#72 = .instr (.rdreg 0x02#8) ∧
      0x200000000200000000#72 &&& (Instr.rdreg 0x02#8).usedBits = 0x20ABCDEF02FFFFFFFF#72 &&& (Instr.rdreg 0x02#8).usedBits) ∧
    (CmdWord.op 0x040000000000000000#72 = CmdWord.op 0x04FFFFFFFFFFFFFFFF#72 ∧
      decode 0x040000000000000000#72 = .reserved 0x04#8) := by decide
theorem witness_StepRunsDecodedCommand :
    ({ State.reset with inputs := [⟨false, true, 0x120000000000000000#72⟩] }.inputs = [⟨false, true, 0x120000000000000000#72⟩] ∧
      decode 0x120000000000000000#72 = .instr .endInput ∧ decode 0x040000000000000000#72 = .reserved 0x04#8) ∧
    decodeTableWord 72 0x120000000000000000 = some .endInput := by decide
theorem witness_ResetPinActsAsSrst : ∃ (s : State) (p : Pins) (ps : List Pins), s.inputs = p :: ps ∧ p.rst = true :=
  ⟨{ opened with inputs := [⟨true, true, 0#72⟩] }, ⟨true, true, 0#72⟩, [], rfl, rfl⟩
theorem witness_NothingPresentedChangesNothing : State.reset.inputs = [] ∧
    ∃ (s : State) (p : Pins) (ps : List Pins), s.inputs = p :: ps ∧ p.rst = false ∧ p.cmdValid = false :=
  ⟨rfl, { opened with inputs := [⟨false, false, 0#72⟩] }, ⟨false, false, 0#72⟩, [], by decide⟩
theorem witness_ReservedOpcodeRaisesIllcmd :
    ([0x040000000000000000#72, 0x0F0000000000000000#72, 0x140000000000000000#72, 0x1F0000000000000000#72,
      0x220000000000000000#72, 0xFF0000000000000000#72].all fun w => decide (CmdWord.op w ∉
        [0x00#8, 0x01#8, 0x02#8, 0x03#8, 0x10#8, 0x11#8, 0x12#8, 0x13#8, 0x20#8, 0x21#8])) = true := by decide
/-- The opcodes of the ten, and the boundaries of the three reserved ranges. -/
theorem witness_OpcodeMapIsDecoded :
    ([(0x00, 0x00#8), (0x01, 0x01#8), (0x02, 0x02#8), (0x03, 0x03#8), (0x10, 0x10#8), (0x11, 0x11#8), (0x12, 0x12#8),
      (0x13, 0x13#8), (0x20, 0x20#8), (0x21, 0x21#8)].all fun q =>
        decide ((BitVec.ofNat 72 (q.1 * 2 ^ 64)).extractLsb' 64 8 = q.2)) = true ∧
    ([0x04, 0x0F, 0x14, 0x1F, 0x22, 0xFF].map fun op => (BitVec.ofNat 72 (op * 2 ^ 64)).toNat / 2 ^ 64) =
      [4, 15, 20, 31, 34, 255] := by decide
theorem witness_OutputsOfOneStepExclude :
    (∃ s t, step s = .next t ∧ t.segTrace ≠ s.segTrace) ∧
    (∃ s t, step s = .next t ∧ t.rspTrace ≠ s.rspTrace ∧ t.evtTrace = s.evtTrace) ∧
    ∃ s t, step s = .next t ∧ t.rspTrace ≠ s.rspTrace ∧ t.evtTrace ≠ s.evtTrace :=
  ⟨⟨opened.withFetchWord 72 0x120000000000000000, _, rfl, by decide⟩,
    ⟨opened.withFetchWord 72 0x200000000600000000, _, rfl, by decide⟩,
    ⟨opened.withFetchWord 72 0x200000000700000000, _, rfl, by decide⟩⟩
theorem witness_PresentedCommandsRunInOrder : State.reset.inputs = [] := by decide
theorem witness_RdregResult : 0x06 < (0x07#8 : Sel).toNat ∧ 0x06 < (0xFF#8 : Sel).toNat ∧
    CmdWord.op 0x20ABCDEF0200000000#72 = 0x20#8 := by decide
theorem witness_WrregResult :
    ([0x01#8, 0x04#8, 0x07#8, 0xFF#8].all fun sel : Sel => decide (sel ∉ [0x00#8, 0x05#8, 0x06#8])) = true ∧
    CmdWord.op 0x210000000600000019#72 = 0x21#8 := by decide
/-- The words and pins of the clauses of `NopChangesNothing`, `SrstResult`, `NewpassResult` and `EndClosesAtTheLastIndex`. -/
theorem witness_plain_words : CmdWord.op 0x00FFFFFFFFFFFFFFFF#72 = 0x00#8 ∧ CmdWord.op 0x030000000000000000#72 = 0x03#8 ∧
    CmdWord.op 0x020000000000000000#72 = 0x02#8 ∧ CmdWord.op 0x120000000000000000#72 = 0x12#8 ∧
    (Pins.mk true true 0#72).rst = true := by decide
theorem witness_SampleWithoutTransition :
    (running .pos 14 true).lastPol = some (classify 0#16 0#16) ∧ (running .neg 15 true).lastPol = some (classify 0x8000#16 0#16) := by
  decide
theorem witness_SampleEndsNoiseRun :
    ((running .neg 6 true).lastPol ≠ some (classify 0#16 0#16) ∧ (running .neg 6 true).run.toNat < 7) ∧
    State.reset.lastPol ≠ some (classify 0#16 0#16) ∧ State.reset.run.toNat < 7 := by decide
theorem witness_SampleEndsLongRun :
    (running .neg 15 false).lastPol ≠ some (classify 0#16 0#16) ∧ 14 < (running .neg 15 false).run.toNat := by decide
theorem witness_SampleEndsShortRun :
    ([running .neg 7 false, running .neg 14 true].all fun s => decide (s.lastPol ≠ some (classify 0#16 0#16)) &&
      decide (7 ≤ s.run.toNat) && decide (s.run.toNat ≤ 14)) = true ∧
    (running .neg 7 false).toggle = false ∧ (running .neg 14 true).toggle = true := by decide
theorem witness_SampleShortRunPushesOne :
    ([beforeF1 79, running .neg 7 true, { running .neg 14 true with len := 81#7 }].all fun s =>
      decide (s.lastPol ≠ some (classify 0#16 0#16)) && decide (7 ≤ s.run.toNat) && decide (s.run.toNat ≤ 14) && s.toggle &&
      decide (¬ (80 ≤ s.len.toNat ∧ (s.sr >>> 1 ||| 0x80000000000000000000#80).extractLsb' 64 16 = 0xBFFC#16))) = true := by
  decide
theorem witness_SampleLatchesCutFrame :
    ([beforeF1 80, beforeF1 81, beforeBad false].all fun s =>
      decide (s.lastPol ≠ some (classify 0#16 0#16)) && decide (7 ≤ s.run.toNat) && decide (s.run.toNat ≤ 14) && s.toggle &&
      decide (80 ≤ s.len.toNat) && decide ((s.sr >>> 1 ||| 0x80000000000000000000#80).extractLsb' 64 16 = 0xBFFC#16) &&
      decide (s.strict = false ∨ frameValid (rawFields (s.sr >>> 1 ||| 0x80000000000000000000#80)) s.ffMax = true)) = true := by
  decide
theorem witness_SampleRejectsCutFrame :
    (beforeBad true).lastPol ≠ some (classify 0#16 0#16) ∧ 7 ≤ (beforeBad true).run.toNat ∧ (beforeBad true).run.toNat ≤ 14 ∧
      (beforeBad true).toggle = true ∧ 80 ≤ (beforeBad true).len.toNat ∧
      frameBad = (beforeBad true).sr >>> 1 ||| 0x80000000000000000000#80 ∧ frameBad.extractLsb' 64 16 = 0xBFFC#16 ∧
      (beforeBad true).strict = true ∧ frameValid (rawFields frameBad) (beforeBad true).ffMax = false := by decide
theorem witness_ConstantPolarityDecodesNothing :
    State.reset.lastPol = none ∧ State.reset.run = 1#4 ∧ [((0#16, 0#16) : Amplitude × Amplitude), (1#16, 0x7FFF#16)] ≠ [] ∧
      ∀ q ∈ [((0#16, 0#16) : Amplitude × Amplitude), (1#16, 0x7FFF#16)], classify q.1 q.2 = .pos :=
  ⟨rfl, rfl, by decide, fun q h => by simp only [List.mem_cons, List.not_mem_nil, or_false] at h; rcases h with rfl | rfl <;> decide⟩
theorem witness_BiphaseMarkSignalDecodesCleanly :
    (8 ≤ 8 ∧ 14 ≤ 14) ∧ State.reset.lastPol = none ∧ State.reset.run = 1#4 ∧ State.reset.toggle = true := by decide
theorem witness_BoundedDecoderRefinesUnbounded : decoderIs TceDecoder.start State.reset :=
  ⟨rfl, rfl, rfl, rfl, fun _ h => nomatch h⟩
theorem witness_FirstFrameNeedsABitInFront :
    State.reset.sr = 0#80 ∧ State.reset.len = 0#7 ∧ (frameBits frameF1).length ≤ 80 ∧ frameF1.extractLsb' 64 16 = 0xBFFC#16 := by
  decide
theorem witness_EverySecondFrameIsCut :
    State.reset.sr = 0#80 ∧ State.reset.len = 0#7 ∧ frameF1.extractLsb' 64 16 = 0xBFFC#16 ∧
      ((List.range 80).all fun k => decide (k = 0) ||
        decide (((frameBits frameF1 ++ frameBits frameF1).drop (64 + k)).take 16 ≠ Config.syncArrival)) = true := by decide
theorem witness_FrameTimecodeDigits :
    (frameBad.extractLsb' 8 2).toNat * 10 + (frameBad.extractLsb' 0 4).toNat = 45 ∧
    (frameBad.extractLsb' 24 3).toNat * 10 + (frameBad.extractLsb' 16 4).toNat = 82 ∧
    (frameBad.extractLsb' 40 3).toNat * 10 + (frameBad.extractLsb' 32 4).toNat = 85 ∧
    (frameBad.extractLsb' 56 2).toNat * 10 + (frameBad.extractLsb' 48 4).toNat = 45 ∧
    (frameBad.extractLsb' 0 64) = (0x8B7F6F5F4F3C271F#80).extractLsb' 0 64 := by decide
theorem witness_RangeCheckOfAFrame :
    (frameF1.extractLsb' 0 4).toNat = 4 ∧ (frameF1.extractLsb' 16 4).toNat = 3 ∧ (frameF1.extractLsb' 32 4).toNat = 2 ∧
    (frameF1.extractLsb' 48 4).toNat = 1 ∧ (frameF1.extractLsb' 8 2).toNat = 0 ∧ (frameF1.extractLsb' 24 3).toNat = 0 ∧
    (frameF1.extractLsb' 40 3).toNat = 0 ∧ (frameF1.extractLsb' 56 2).toNat = 0 ∧ 39 ≤ State.reset.ffMax.toNat := by decide
theorem witness_OnlySampleAndResetWriteTheLatch :
    (∃ t, CmdWord.op 0x020000000000000000#72 ≠ 0x01#8 ∧ CmdWord.op 0x020000000000000000#72 ≠ 0x03#8 ∧
      runCommand 0x020000000000000000#72 (beforeF1 80) = .next t) ∧
    ∃ t, exec (.sample 0#16 0#16) (beforeF1 79) = .next t ∧ t.evtTrace ≠ (beforeF1 79).evtTrace ++ [.frame t.tc] :=
  ⟨⟨_, by decide, by decide, rfl⟩, _, rfl, by decide⟩
theorem witness_SentinelObservationOnlyAdvancesTheIndex :
    (State.reset.seen = true → State.reset.lastIdx < 0#32) ∧ (opened.seen = true → opened.lastIdx < 9#32) ∧
      opened.tc = 0x00000000#32 := by decide
theorem witness_FirstObservationOpensSegment :
    (State.reset.seen = true → State.reset.lastIdx < 0#32) ∧ State.reset.segOpen = false ∧
      isDecimal 0x99999999#32 = true ∧ (0x99999999#32 : Timecode) ≠ 0#32 ∧
      { State.reset with tc := 0x00000001#32 }.tc = 0x00000001#32 := by decide
theorem witness_SameTimecodeExtendsSegment :
    (opened.seen = true → opened.lastIdx < 9#32) ∧ opened.segOpen = true ∧ 0x01000000#32 = opened.prevTc ∧
      isDecimal opened.prevTc = true ∧ { opened with tc := 0x01000000#32 }.tc = opened.prevTc := by decide
theorem witness_ChangedTimecodeEmitsRecord :
    (opened.seen = true → opened.lastIdx < 9#32) ∧ opened.segOpen = true ∧ (0x01000001#32 : Timecode) ≠ 0#32 ∧
      0x01000001#32 ≠ opened.prevTc ∧ isDecimal 0x01000001#32 = true ∧ { opened with tc := 0x01000001#32 }.tc = 0x01000001#32 :=
  by decide
theorem witness_NonDecimalObservationRaisesBadtc :
    (0 < 8 ∧ 9 < (0x0000000A#32 : Timecode).toNat / 16 ^ 0 % 16) ∧ 7 < 8 ∧ 9 < (0xF0000000#32 : Timecode).toNat / 16 ^ 7 % 16 := by
  decide
theorem witness_StaleIndexRaisesOrder :
    opened.seen = true ∧ isDecimal 0x01000000#32 = true ∧ (8#32 : Index) ≤ opened.lastIdx ∧ (7#32 : Index) < opened.lastIdx := by
  decide
theorem witness_EndClosesAtTheLastIndex : opened.segOpen = true ∧ State.reset.segOpen = false := by decide
theorem witness_EndatClosesAtTheGivenIndex :
    (opened.seen = true → opened.lastIdx ≤ 8#32) ∧ opened.segOpen = true ∧ 8#32 = opened.lastIdx ∧
      (State.reset.seen = true → State.reset.lastIdx ≤ 5#32) ∧ State.reset.segOpen = false ∧
      opened.seen = true ∧ 7#32 < opened.lastIdx ∧ CmdWord.op 0x130000000000000013#72 = 0x13#8 := by decide
/-- The observations of V-A5. -/
theorem witness_SourceRecordsCoverItsObservations : ∃ obs : List (Timecode × Index),
    obs = [(0#32, 0#32), (0#32, 1#32), (0x10000000#32, 2#32), (0x10000000#32, 3#32), (0#32, 4#32), (0x10000001#32, 6#32),
      (0x10000000#32, 7#32), (0#32, 8#32)] ∧
    State.reset.seen = false ∧ State.reset.segOpen = false ∧ (∀ o ∈ obs, isDecimal o.1 = true) ∧
    obs.Pairwise (fun o o' => o.2 < o'.2) :=
  ⟨_, rfl, rfl, rfl, fun o h => by
    simp only [List.mem_cons, List.not_mem_nil, or_false] at h
    rcases h with rfl | rfl | rfl | rfl | rfl | rfl | rfl | rfl <;> decide, by
    simp only [List.pairwise_cons, List.mem_cons, List.not_mem_nil, or_false, forall_eq_or_imp, forall_eq]
    simp⟩
theorem witness_WhichCommandsFault :
    (∃ t, runCommand 0x040000000000000000#72 State.reset = .next t ∧ t.evtTrace = State.reset.evtTrace ++ [.fault .illcmd]) ∧
    (∃ t, runCommand 0x200000000700000000#72 State.reset = .next t ∧ t.evtTrace = State.reset.evtTrace ++ [.fault .illreg]) ∧
    (∃ t, runCommand 0x210000000400000000#72 State.reset = .next t ∧ t.evtTrace = State.reset.evtTrace ++ [.fault .illreg]) ∧
    (∃ t, runCommand 0x100000000A00000000#72 State.reset = .next t ∧ t.evtTrace = State.reset.evtTrace ++ [.fault .badtc]) ∧
    (∃ t, runCommand 0x100000000000000008#72 opened = .next t ∧ t.evtTrace = opened.evtTrace ++ [.fault .order]) ∧
    (∃ t, runCommand 0x110000000000000008#72 opened = .next t ∧ t.evtTrace = opened.evtTrace ++ [.fault .order]) ∧
    ∃ t, runCommand 0x130000000000000007#72 opened = .next t ∧ t.evtTrace = opened.evtTrace ++ [.fault .order] :=
  ⟨⟨_, rfl, by decide⟩, ⟨_, rfl, by decide⟩, ⟨_, rfl, by decide⟩, ⟨_, rfl, by decide⟩, ⟨_, rfl, by decide⟩,
    ⟨_, rfl, by decide⟩, ⟨_, rfl, by decide⟩⟩
/-- A command that raises a fault, and the refused read. -/
theorem witness_RaisingAFault :
    (∃ t, runCommand 0x130000000000000007#72 opened = .next t ∧ t.evtTrace = opened.evtTrace ++ [.fault .order]) ∧
    ∃ t, runCommand 0x200000000700000000#72 opened = .next t ∧ t.evtTrace = opened.evtTrace ++ [.fault .illreg] :=
  ⟨⟨_, rfl, by decide⟩, ⟨_, rfl, by decide⟩⟩
theorem witness_RecordWordFields : ∃ (t : State) (r : SegRecord), runCommand 0x120000000000000000#72 opened = .next t ∧
    t.segTrace = opened.segTrace ++ [r] := ⟨_, _, rfl, rfl⟩
theorem witness_OnlyResetClearsStickyBits : ∃ s t : State, CmdWord.op 0x120000000000000000#72 ≠ 0x03#8 ∧
    runCommand 0x120000000000000000#72 s = .next t ∧ faultBit .order s = true ∧ s.malformed = true ∧ s.fcode ≠ 0#4 :=
  ⟨{ opened with malformed := true, fOrder := true, fcode := 4#4 }, _, by decide, rfl, by decide⟩
/-- A segment open, a record emitted and a fault recorded. -/
def busy : State := { opened with
  fOrder := true
  fcode := 4#4
  segTrace := [⟨0#32, 0#16, 0x00000001#32, 0x00000001#32, 3#32, 4#32, 2#32⟩] }
theorem witness_invariant : State.Inv busy :=
  ⟨⟨by decide, by decide, fun _ => ⟨rfl, rfl, rfl, rfl⟩⟩, ⟨by decide, fun _ => ⟨rfl, rfl, rfl⟩⟩,
    ⟨fun _ => ⟨rfl, by decide, by decide, by decide⟩, fun h => absurd h (by decide), fun h => absurd h (by decide)⟩,
    .inr ⟨.order, rfl, rfl⟩, fun r h => by
      rw [List.mem_singleton.mp h]
      exact ⟨rfl, by decide, by decide, by decide, by decide⟩⟩
theorem witness_StepKeepsTheInvariant : ∃ s t : State, State.Inv s ∧ step s = .next t := ⟨_, _, witness_invariant, rfl⟩
theorem witness_ObslIsObsOfTheLatch : ∃ s : State, State.Inv s := ⟨_, witness_invariant⟩
theorem witness_TimecodeStringIsInjective : isDecimal 0x99999999#32 = true ∧ fmt 0x99999999#32 = fmt 0x99999999#32 := by decide
theorem witness_BufferFraming : 0 < [0x01#8, 0x02#8, 0x03#8, 0x04#8, (0x05#8 : Byte)].length / 4 := by decide

end Sys2Proof.Tests
end

section
/-! SUPPORT. What one command can output, and that every command word outputs exactly one such thing
(spec/00_scope.md R9; the five forms are those of spec/60_exceptions.md R258). -/

open Sys2Proof Sys2Proof.Machine Sys2Proof.Laws

namespace Sys2Proof.Proofs

/-- Everything one command can output. Only the refused read has two parts, its error response and its ILLREG fault. -/
inductive StepOutput where
  | silent
  | response (r : Response)
  | event (e : Event)
  | record (g : SegRecord)
  | refusedRead

/-- The response in an output. -/
@[simp] def StepOutput.rsp : StepOutput → Option Response
  | .response r => some r
  | .refusedRead => some ⟨true, 0#32⟩
  | _ => none

/-- The event in an output. -/
@[simp] def StepOutput.evt : StepOutput → Option Event
  | .event e => some e
  | .refusedRead => some (.fault .illreg)
  | _ => none

/-- The segment record in an output. -/
@[simp] def StepOutput.seg : StepOutput → Option SegRecord
  | .record g => some g
  | _ => none

/-- The traces of `t` are those of `s` with the output `o` appended (10_state.md R47). -/
structure Emits (o : StepOutput) (s t : State) : Prop where
  rsp : t.rspTrace = s.rspTrace ++ o.rsp.toList
  evt : t.evtTrace = s.evtTrace ++ o.evt.toList
  seg : t.segTrace = s.segTrace ++ o.seg.toList

/-- Equal traces: nothing was emitted. -/
theorem Emits.of_traces_eq {s t : State} (hr : t.rspTrace = s.rspTrace) (he : t.evtTrace = s.evtTrace)
    (hg : t.segTrace = s.segTrace) : Emits .silent s t := by
  constructor <;> simp [hr, he, hg]

/-- A fault is one event (60_exceptions.md R252). -/
theorem raiseFault_emits (c : FaultCode) (s : State) : Emits (.event (.fault c)) s (raiseFault c s) := by
  constructor <;> simp

/-- A pushed bit emits at most the event of the frame it cuts. -/
theorem pushBit_emits (b : Bool) (s : State) : ∃ o, Emits o s (pushBit b s) := by
  rcases pushBit_cases b s with h | h | h <;> rw [h]
  · exact ⟨.silent, .of_traces_eq rfl rfl rfl⟩
  · exact ⟨.event (.frame (frameTimecode (shiftIn b s.sr))), by constructor <;> simp⟩
  · exact ⟨.event (.malformed (frameTimecode (shiftIn b s.sr))), by constructor <;> simp⟩

/-- An observed polarity emits what the bit it pushes emits, if it pushes one. -/
theorem observePolarity_emits (p : Polarity) (s : State) : ∃ o, Emits o s (observePolarity p s) := by
  rcases observePolarity_cases p s with h | h | h | h | h <;> rw [h]
  · exact ⟨.silent, .of_traces_eq rfl rfl rfl⟩
  · exact ⟨.silent, .of_traces_eq rfl rfl rfl⟩
  · exact ⟨.silent, .of_traces_eq rfl rfl rfl⟩
  · obtain ⟨o, hr, he, hg⟩ := pushBit_emits false s
    exact ⟨o, hr, he, hg⟩
  · obtain ⟨o, hr, he, hg⟩ := pushBit_emits true s
    exact ⟨o, hr, he, hg⟩

/-- An observed timecode emits a fault, or at most the record of the segment it closes. -/
theorem observe_emits (tc : Timecode) (idx : Index) (s : State) : ∃ o, Emits o s (observe tc idx s) := by
  rcases observe_cases tc idx s with ⟨-, -, h⟩ | ⟨-, ⟨-, h⟩ | ⟨-, -, h⟩ | ⟨-, -, -, h⟩ | ⟨-, -, -, h⟩⟩ <;> rw [h]
  · exact ⟨_, raiseFault_emits .order s⟩
  · exact ⟨.silent, .of_traces_eq rfl rfl rfl⟩
  · exact ⟨.silent, .of_traces_eq rfl rfl rfl⟩
  · exact ⟨.silent, .of_traces_eq rfl rfl rfl⟩
  · exact ⟨.record (closingRecord (idx - 1#32) s), by constructor <;> simp⟩

/-- The end of a source emits at most the record of the open segment. -/
theorem closeInput_emits (n : Index) (s : State) : ∃ o, Emits o s (closeInput n s) := by
  rcases closeInput_cases n s with ⟨-, h⟩ | ⟨-, h⟩ <;> rw [h]
  · exact ⟨.record (closingRecord n s), by constructor <;> simp⟩
  · exact ⟨.silent, .of_traces_eq rfl rfl rfl⟩

/-- Every command emits one of the five outputs. -/
theorem exec_emits {i : Instr} {s t : State} (h : exec i s = .next t) : ∃ o, Emits o s t := by
  have hcases := exec_cases i s t h
  cases i with
  | nop => exact ⟨.silent, hcases ▸ .of_traces_eq rfl rfl rfl⟩
  | sample s0 s1 => exact hcases ▸ observePolarity_emits _ s
  | newpass => exact ⟨.silent, hcases ▸ .of_traces_eq rfl rfl rfl⟩
  | srst => exact ⟨.silent, hcases ▸ .of_traces_eq rfl rfl rfl⟩
  | obs tc idx =>
    rcases hcases with ⟨-, rfl⟩ | ⟨-, rfl⟩
    · exact observe_emits tc idx s
    · exact ⟨_, raiseFault_emits .badtc s⟩
  | obsl idx => exact hcases ▸ observe_emits s.tc idx s
  | endInput => exact hcases ▸ closeInput_emits s.lastIdx s
  | endat n =>
    rcases hcases with ⟨-, -, rfl⟩ | ⟨-, rfl⟩
    · exact ⟨_, raiseFault_emits .order s⟩
    · exact closeInput_emits n s
  | rdreg sel =>
    rcases hcases with ⟨-, v, rfl⟩ | ⟨-, rfl⟩
    · exact ⟨.response ⟨false, v⟩, by constructor <;> simp⟩
    · exact ⟨.refusedRead, by constructor <;> simp⟩
  | wrreg sel v =>
    rcases hcases with ⟨-, rfl⟩ | ⟨-, rfl⟩ | ⟨-, rfl⟩ | ⟨-, rfl⟩
    · exact ⟨.silent, .of_traces_eq rfl rfl rfl⟩
    · exact ⟨.silent, .of_traces_eq rfl rfl rfl⟩
    · exact ⟨.silent, .of_traces_eq rfl rfl rfl⟩
    · exact ⟨_, raiseFault_emits .illreg s⟩

/-- Every command word leads to a next state and emits one of the five outputs. -/
theorem runCommand_emits (w : CmdWord) (s : State) : ∃ t o, runCommand w s = .next t ∧ Emits o s t := by
  rcases runCommand_cases w s with ⟨i, -, -, hrun⟩ | hrun
  · obtain ⟨t, ht⟩ := exec_next i s
    obtain ⟨o, ho⟩ := exec_emits ht
    exact ⟨t, o, hrun.trans ht, ho⟩
  · exact ⟨_, _, hrun, raiseFault_emits .illcmd s⟩

/-! ## The statement of spec/00_scope.md R9 -/

/-- Settles O10: a word emits one of five outputs, and each holds at most one element for each trace. -/
theorem everyWordHasANextState : Obligations.EveryWordHasANextState := by
  intro w s
  obtain ⟨t, o, hrun, hrsp, hevt, hseg⟩ := runCommand_emits w s
  exact ⟨t, o.rsp, o.evt, o.seg, hrun, hrsp, hevt, hseg⟩

end Sys2Proof.Proofs
end

section
/-! SUPPORT. The framer in closed form: one `SAMPLE` for each whole pair of the buffer, read off the pair's four bytes
(spec/20_memory.md R62, R66). -/

open Sys2Proof Sys2Proof.Machine

namespace Sys2Proof.Proofs

/-- The `SAMPLE` held in the bytes `4 * k` to `4 * k + 3` of a buffer, low byte first. -/
def sampleAt (bytes : List Byte) (k : Nat) : Instr :=
  .sample (bytes.getD (4 * k + 1) 0#8 ++ bytes.getD (4 * k) 0#8)
    (bytes.getD (4 * k + 3) 0#8 ++ bytes.getD (4 * k + 2) 0#8)

theorem sampleAt_cons_zero (b0 b1 b2 b3 : Byte) (rest : List Byte) :
    sampleAt (b0 :: b1 :: b2 :: b3 :: rest) 0 = .sample (b1 ++ b0) (b3 ++ b2) := rfl

theorem sampleAt_cons_succ (b0 b1 b2 b3 : Byte) (rest : List Byte) (k : Nat) :
    sampleAt (b0 :: b1 :: b2 :: b3 :: rest) (k + 1) = sampleAt rest k := rfl

/-- A pair that lies in the first `m` bytes is not touched by dropping the bytes behind them. -/
theorem sampleAt_take {bytes : List Byte} {k m : Nat} (h : 4 * k + 3 < m) :
    sampleAt (bytes.take m) k = sampleAt bytes k := by
  have hget : ∀ i, i ≤ 4 * k + 3 → (bytes.take m).getD i 0#8 = bytes.getD i 0#8 := fun i hi => by
    rw [List.getD_eq_getElem?_getD, List.getD_eq_getElem?_getD, List.getElem?_take_of_lt (hi.trans_lt h)]
  simp only [sampleAt, hget _ (Nat.le_refl _), hget (4 * k) (by omega), hget (4 * k + 1) (by omega),
    hget (4 * k + 2) (by omega)]

/-- The framer takes a whole pair off the front of the buffer. -/
theorem frameBuffer_cons (b0 b1 b2 b3 : Byte) (rest : List Byte) :
    frameBuffer (b0 :: b1 :: b2 :: b3 :: rest) = .sample (b1 ++ b0) (b3 ++ b2) :: frameBuffer rest := rfl

/-- An incomplete pair yields no command. -/
theorem frameBuffer_of_length_lt_four : ∀ {bytes : List Byte}, bytes.length < 4 → frameBuffer bytes = []
  | [], _ | [_], _ | [_, _], _ | [_, _, _], _ => rfl
  | _ :: _ :: _ :: _ :: _, h => by simp only [List.length_cons] at h; omega

/-- The framer yields the `SAMPLE` of each whole pair, in order. -/
theorem frameBuffer_eq_map_sampleAt (bytes : List Byte) :
    frameBuffer bytes = (List.range (bytes.length / 4)).map (sampleAt bytes) := by
  induction bytes using frameBuffer.induct with
  | case1 b0 b1 b2 b3 rest ih =>
    have hcount : (b0 :: b1 :: b2 :: b3 :: rest).length / 4 = rest.length / 4 + 1 := by
      simp only [List.length_cons]; omega
    rw [frameBuffer_cons, hcount, List.range_succ_eq_map, List.map_cons, List.map_map, sampleAt_cons_zero, ih]
    exact congrArg _ (List.map_congr_left fun k _ => (sampleAt_cons_succ b0 b1 b2 b3 rest k).symm)
  | case2 bytes hshort =>
    have hlen : bytes.length < 4 := by
      match bytes, hshort with
      | [], _ | [_], _ | [_, _], _ | [_, _, _], _ => simp
      | b0 :: b1 :: b2 :: b3 :: rest, hshort => exact (hshort b0 b1 b2 b3 rest rfl).elim
    rw [frameBuffer_of_length_lt_four hlen, Nat.div_eq_of_lt hlen, List.range_zero, List.map_nil]

/-- The bytes behind the last whole pair are dropped. -/
theorem frameBuffer_take_whole_pairs (bytes : List Byte) :
    frameBuffer (bytes.take (4 * (bytes.length / 4))) = frameBuffer bytes := by
  have hcount : (bytes.take (4 * (bytes.length / 4))).length / 4 = bytes.length / 4 := by
    rw [List.length_take]; omega
  rw [frameBuffer_eq_map_sampleAt, hcount, frameBuffer_eq_map_sampleAt bytes]
  refine List.map_congr_left fun k hk => sampleAt_take ?_
  have := List.mem_range.mp hk
  omega

/-! ## The statement of spec/20_memory.md R62 and R66 -/

/-- Settles O56: the count and each pair are read off the closed form of the framer. -/
theorem bufferFraming : Obligations.BufferFraming := by
  intro bytes
  refine ⟨?_, (frameBuffer_take_whole_pairs bytes).symm, fun k hk => ?_⟩
  · rw [frameBuffer_eq_map_sampleAt, List.length_map, List.length_range]
  · rw [frameBuffer_eq_map_sampleAt, List.getElem?_map, List.getElem?_range hk, Option.map_some, sampleAt]

end Sys2Proof.Proofs
end

section
/-! SUPPORT. The decoder as the opcode table gives it: one equation per opcode, and each operand as a slice of the whole
word (spec/30_encoding.md R80 to R88). -/

open Sys2Proof Sys2Proof.Machine Sys2Proof.Laws

namespace Sys2Proof.Proofs

/-- A slice of a slice is a slice of the whole. -/
theorem extract_extract {m : Nat} (x : BitVec m) (s n : Nat) {s' n' : Nat} (h : s' + n' ≤ n) :
    (x.extractLsb' s n).extractLsb' s' n' = x.extractLsb' (s + s') n' := by
  apply BitVec.eq_of_getLsbD_eq
  intro i hi
  have hin : s' + i < n := by omega
  simp only [BitVec.getLsbD_extractLsb', hi, hin, decide_true, Bool.true_and, Nat.add_assoc]

theorem opndS0_eq (w : CmdWord) : opndS0 w = w.extractLsb' 0 16 := extract_extract w 0 32 (by decide)

theorem opndS1_eq (w : CmdWord) : opndS1 w = w.extractLsb' 16 16 := extract_extract w 0 32 (by decide)

theorem opndSel_eq (w : CmdWord) : opndSel w = w.extractLsb' 32 8 := extract_extract w 32 32 (by decide)

section
variable {w : CmdWord}

theorem decode_op_nop (h : CmdWord.op w = 0x00#8) : decode w = .instr .nop := by simp [decode, h]

theorem decode_op_sample (h : CmdWord.op w = 0x01#8) : decode w = .instr (.sample (opndS0 w) (opndS1 w)) := by
  simp [decode, h]

theorem decode_op_newpass (h : CmdWord.op w = 0x02#8) : decode w = .instr .newpass := by simp [decode, h]

theorem decode_op_srst (h : CmdWord.op w = 0x03#8) : decode w = .instr .srst := by simp [decode, h]

theorem decode_op_obs (h : CmdWord.op w = 0x10#8) : decode w = .instr (.obs (CmdWord.a w) (CmdWord.b w)) := by
  simp [decode, h]

theorem decode_op_obsl (h : CmdWord.op w = 0x11#8) : decode w = .instr (.obsl (CmdWord.b w)) := by simp [decode, h]

theorem decode_op_endInput (h : CmdWord.op w = 0x12#8) : decode w = .instr .endInput := by simp [decode, h]

theorem decode_op_endat (h : CmdWord.op w = 0x13#8) : decode w = .instr (.endat (CmdWord.b w)) := by simp [decode, h]

theorem decode_op_rdreg (h : CmdWord.op w = 0x20#8) : decode w = .instr (.rdreg (opndSel w)) := by simp [decode, h]

theorem decode_op_wrreg (h : CmdWord.op w = 0x21#8) : decode w = .instr (.wrreg (opndSel w) (CmdWord.b w)) := by
  simp [decode, h]

end

/-- The opcode is the number above bit 64: no bit stands above it. -/
theorem op_toNat (w : CmdWord) : (CmdWord.op w).toNat = w.toNat / 2 ^ 64 := by
  have hlt := w.isLt
  rw [CmdWord.op, extract_toNat]
  omega

/-- An opcode number in one of the three reserved ranges of R82 is none of the ten. -/
theorem decode_reserved_range {w : CmdWord}
    (h : (4 ≤ w.toNat / 2 ^ 64 ∧ w.toNat / 2 ^ 64 ≤ 15) ∨ (20 ≤ w.toNat / 2 ^ 64 ∧ w.toNat / 2 ^ 64 ≤ 31) ∨
      34 ≤ w.toNat / 2 ^ 64) : decode w = .reserved (CmdWord.op w) := by
  refine decode_reserved w fun hmem => ?_
  rw [← op_toNat] at h
  generalize CmdWord.op w = op at h hmem
  simp only [List.mem_cons, List.not_mem_nil, or_false] at hmem
  rcases hmem with rfl | rfl | rfl | rfl | rfl | rfl | rfl | rfl | rfl | rfl <;> simp at h

/-! ## The statement of spec/30_encoding.md R82 -/

/-- Settles O2: the decoder's equation for each opcode, its operands written as slices of the word. -/
theorem opcodeMapIsDecoded : Obligations.OpcodeMapIsDecoded := by
  intro w
  rw [← opndS0_eq, ← opndS1_eq, ← opndSel_eq]
  exact ⟨decode_op_nop, decode_op_sample, decode_op_newpass, decode_op_srst, decode_op_obs, decode_op_obsl,
    decode_op_endInput, decode_op_endat, decode_op_rdreg, decode_op_wrreg, decode_reserved_range⟩

end Sys2Proof.Proofs
end

section
/-! SUPPORT. The string of a timecode as numbers, and what it determines (spec/30_encoding.md R105, R106). -/

open Sys2Proof Sys2Proof.Machine Sys2Proof.Laws

namespace Sys2Proof.Proofs

/-- The character of a digit does not wrap in its byte. -/
theorem asciiDigit_tcDigit_toNat (t : Timecode) (k : Nat) :
    (asciiDigit (tcDigit t k)).toNat = 0x30 + t.toNat / 16 ^ k % 16 := by
  rw [asciiDigit, BitVec.toNat_ofNat, tcDigit_eq]
  omega

/-- The eleven characters as numbers. -/
theorem fmt_toNat (t : Timecode) : (fmt t).map BitVec.toNat =
    [0x30 + t.toNat / 16 ^ 7 % 16, 0x30 + t.toNat / 16 ^ 6 % 16, 0x3A, 0x30 + t.toNat / 16 ^ 5 % 16,
     0x30 + t.toNat / 16 ^ 4 % 16, 0x3A, 0x30 + t.toNat / 16 ^ 3 % 16, 0x30 + t.toNat / 16 ^ 2 % 16, 0x3A,
     0x30 + t.toNat / 16 % 16, 0x30 + t.toNat % 16] := by
  simp only [fmt, List.map_cons, List.map_nil, asciiDigit_tcDigit_toNat, pow_one, pow_zero, Nat.div_one]
  rfl

/-- The eight digits are the whole number, so the string determines it; that the digits are decimal is not needed. -/
theorem fmt_injective : Function.Injective fmt := by
  intro t u h
  have hchars := congrArg (List.map BitVec.toNat) h
  simp only [fmt_toNat, List.cons.injEq, Nat.add_left_cancel_iff] at hchars
  obtain ⟨h7, h6, -, h5, h4, -, h3, h2, -, h1, h0, -⟩ := hchars
  have ht := t.isLt
  have hu := u.isLt
  apply BitVec.eq_of_toNat_eq
  omega

/-! ## The statement of spec/30_encoding.md R106 -/

/-- Settles O55: the characters as numbers give the form and the example, and determine the timecode. -/
theorem timecodeStringIsInjective : Obligations.TimecodeStringIsInjective :=
  ⟨fmt_toNat, fun _ _ _ _ h => fmt_injective h, by decide⟩

end Sys2Proof.Proofs
end

section
/-! SUPPORT. The word of a segment record, and which record a command can emit (spec/30_encoding.md R110). -/

open Sys2Proof Sys2Proof.Machine Sys2Proof.Laws

namespace Sys2Proof.Proofs

/-! ## The 208-bit word -/

/-- The number a packed record stands for. -/
theorem pack_toNat (r : SegRecord) : (SegRecord.pack r).toNat =
    r.srcid.toNat * 2 ^ 176 + r.rate.toNat * 2 ^ 160 + r.startTc.toNat * 2 ^ 128 + r.endTc.toNat * 2 ^ 96 +
      r.startIdx.toNat * 2 ^ 64 + r.endIdx.toNat * 2 ^ 32 + r.count.toNat := by
  refine (append_toNat _ r.count).trans ?_
  simp only [append_toNat]
  omega

/-- The seven fields stand in the word where the table of R110 puts them. -/
theorem pack_slices (r : SegRecord) :
    (SegRecord.pack r).extractLsb' 176 32 = r.srcid ∧ (SegRecord.pack r).extractLsb' 160 16 = r.rate ∧
    (SegRecord.pack r).extractLsb' 128 32 = r.startTc ∧ (SegRecord.pack r).extractLsb' 96 32 = r.endTc ∧
    (SegRecord.pack r).extractLsb' 64 32 = r.startIdx ∧ (SegRecord.pack r).extractLsb' 32 32 = r.endIdx ∧
    (SegRecord.pack r).extractLsb' 0 32 = r.count := by
  refine ⟨?_, ?_, ?_, ?_, ?_, ?_, ?_⟩ <;>
    (apply BitVec.eq_of_toNat_eq
     rw [extract_toNat, pack_toNat]
     omega)

/-! ## The record a command can emit -/

/-- Between `s` and `t` no record was emitted, or one that closes the open segment of `s` at some index. -/
def ClosesAtMostOneSegment (s t : State) : Prop :=
  t.segTrace = s.segTrace ∨ ∃ endIdx, t.segTrace = s.segTrace ++ [closingRecord endIdx s]

/-- A pushed bit emits no record. -/
theorem pushBit_segTrace (b : Bool) (s : State) : (pushBit b s).segTrace = s.segTrace := by
  rcases pushBit_cases b s with h | h | h <;> simp [h]

/-- A sample pair emits no record. -/
theorem observePolarity_segTrace (p : Polarity) (s : State) : (observePolarity p s).segTrace = s.segTrace := by
  rcases observePolarity_cases p s with h | h | h | h | h <;> simp [h, pushBit_segTrace]

/-- Of the outcomes of an observation only the change of timecode emits a record. -/
theorem observe_closesAtMostOneSegment (tc : Timecode) (idx : Index) (s : State) :
    ClosesAtMostOneSegment s (observe tc idx s) := by
  rcases observe_cases tc idx s with ⟨-, -, h⟩ | ⟨-, ⟨-, h⟩ | ⟨-, -, h⟩ | ⟨-, -, -, h⟩ | ⟨-, -, -, h⟩⟩ <;> rw [h]
  · exact .inl rfl
  · exact .inl rfl
  · exact .inl rfl
  · exact .inl rfl
  · exact .inr ⟨idx - 1#32, rfl⟩

/-- The end of a source emits a record when a segment is open. -/
theorem closeInput_closesAtMostOneSegment (n : Index) (s : State) : ClosesAtMostOneSegment s (closeInput n s) := by
  rcases closeInput_cases n s with ⟨-, h⟩ | ⟨-, h⟩ <;> rw [h]
  · exact .inr ⟨n, rfl⟩
  · exact .inl rfl

/-- Records come from the aggregator's commands alone, and each closes the open segment. -/
theorem exec_closesAtMostOneSegment {i : Instr} {s t : State} (h : exec i s = .next t) : ClosesAtMostOneSegment s t := by
  have hcases := exec_cases i s t h
  cases i with
  | nop => exact hcases ▸ .inl rfl
  | sample s0 s1 => exact hcases ▸ .inl (observePolarity_segTrace _ s)
  | newpass => exact hcases ▸ .inl rfl
  | srst => exact hcases ▸ .inl rfl
  | obs tc idx =>
    rcases hcases with ⟨-, rfl⟩ | ⟨-, rfl⟩
    · exact observe_closesAtMostOneSegment tc idx s
    · exact .inl rfl
  | obsl idx => exact hcases ▸ observe_closesAtMostOneSegment s.tc idx s
  | endInput => exact hcases ▸ closeInput_closesAtMostOneSegment s.lastIdx s
  | endat n =>
    rcases hcases with ⟨-, -, rfl⟩ | ⟨-, rfl⟩
    · exact .inl rfl
    · exact closeInput_closesAtMostOneSegment n s
  | rdreg sel => rcases hcases with ⟨-, v, rfl⟩ | ⟨-, rfl⟩ <;> exact .inl rfl
  | wrreg sel v => rcases hcases with ⟨-, rfl⟩ | ⟨-, rfl⟩ | ⟨-, rfl⟩ | ⟨-, rfl⟩ <;> exact .inl rfl

/-- A command word emits no record, or one that closes the open segment. -/
theorem runCommand_closesAtMostOneSegment {w : CmdWord} {s t : State} (h : runCommand w s = .next t) :
    ClosesAtMostOneSegment s t := by
  rcases runCommand_cases w s with ⟨i, -, -, hrun⟩ | hrun
  · exact exec_closesAtMostOneSegment (hrun.symm.trans h)
  · cases hrun.symm.trans h
    exact .inl rfl

/-- A record that was emitted is a closing record. -/
theorem ClosesAtMostOneSegment.eq_closingRecord {s t : State} {r : SegRecord} (h : ClosesAtMostOneSegment s t)
    (hr : t.segTrace = s.segTrace ++ [r]) : ∃ endIdx, r = closingRecord endIdx s := by
  rcases h with h | ⟨endIdx, h⟩
  · rw [h] at hr
    simp at hr
  · exact ⟨endIdx, by simpa [h, eq_comm] using hr⟩

/-! ## The statement of spec/30_encoding.md R110 -/

/-- Settles O54: the slices of the packed word, and every emitted record is the closing record of its step. -/
theorem recordWordFields : Obligations.RecordWordFields := by
  refine ⟨pack_slices, fun w s t r hrun hr => ?_⟩
  obtain ⟨endIdx, rfl⟩ := (runCommand_closesAtMostOneSegment hrun).eq_closingRecord hr
  obtain ⟨hsrcid, hrate, -⟩ := pack_slices (closingRecord endIdx s)
  exact ⟨hsrcid, hrate⟩

end Sys2Proof.Proofs
end

section
/-! SUPPORT. The demodulator: the sign test of the classifier, what the end of a run of each class does, and the two
forms of a SAMPLE step (spec/40_demodulator.md R120 to R130). -/

open Sys2Proof Sys2Proof.Machine Sys2Proof.Laws

namespace Sys2Proof.Proofs

/-! ## The classifier -/

/-- A two's-complement amplitude is below zero exactly when its sign bit is set (40_demodulator.md R135). -/
theorem amplitude_toInt_neg_iff (w : Amplitude) : w.toInt < 0 ↔ 0x8000 ≤ w.toNat := by
  rw [BitVec.toInt_neg_iff]
  omega

theorem classify_eq_neg_iff_toInt (s0 s1 : Amplitude) : classify s0 s1 = .neg ↔ min s0.toInt s1.toInt < 0 := by
  rw [classify_iff, signed16_eq_toInt, signed16_eq_toInt]

/-- A minimum is below zero exactly when one of the two is. -/
theorem classify_eq_neg_iff_signBit (s0 s1 : Amplitude) :
    classify s0 s1 = .neg ↔ 0x8000 ≤ s0.toNat ∨ 0x8000 ≤ s1.toNat := by
  rw [classify_eq_neg_iff_toInt, min_lt_iff, amplitude_toInt_neg_iff, amplitude_toInt_neg_iff]

theorem polarity_eq_pos_iff (p : Polarity) : p = .pos ↔ p ≠ .neg := by
  cases p <;> decide

theorem classify_eq_pos_iff_signBit (s0 s1 : Amplitude) :
    classify s0 s1 = .pos ↔ s0.toNat < 0x8000 ∧ s1.toNat < 0x8000 := by
  rw [polarity_eq_pos_iff, ne_eq, classify_eq_neg_iff_signBit, not_or, not_le, not_le]

/-! ## The end of a run -/

/-- A pushed `0` cuts no frame in any state (41_frame_sync.md R142). -/
theorem pushBit_false (s : State) : pushBit false s = appendBit false s :=
  pushBit_append (cutNow_shiftIn_false s.sr (nextLen s.len))

section
variable {s : State}

theorem endRun_noise (h : s.run.toNat < 7) : endRun s = s := by
  simp [endRun, runClass_noise s.run h]

theorem endRun_long (h : 14 < s.run.toNat) : endRun s = appendBit false s := by
  simp [endRun, runClass_long s.run h, pushBit_false]

theorem endRun_short (hmin : 7 ≤ s.run.toNat) (hmax : s.run.toNat ≤ 14) :
    endRun s = if s.toggle then setToggle false (pushBit true s) else setToggle true s := by
  simp [endRun, runClass_short s.run hmin hmax]

end

/-- The counter's number form of `sat(run + 1, 15)` as the word form: it stays at 15 and else goes up by one. -/
theorem nextRun_eq_ite (run : BitVec 4) : nextRun run = if run = 15#4 then 15#4 else run + 1#4 := by
  revert run
  decide

/-! ## The two commands -/

section
variable {s : State} {s0 s1 : Amplitude}

/-- R127: no transition. -/
theorem exec_sample_same (h : s.lastPol = some (classify s0 s1)) : exec (.sample s0 s1) s = .next (countRun s) :=
  congrArg _ (if_pos h)

/-- R122, R128: a transition ends the run, and the next one starts with the new polarity. -/
theorem exec_sample_transition (h : s.lastPol ≠ some (classify s0 s1)) :
    exec (.sample s0 s1) s = .next (startRun (classify s0 s1) (endRun s)) :=
  congrArg _ (if_neg h)

end

theorem exec_newpass (s : State) : exec .newpass s = .next (clearAccumulator (clearDemod s)) := rfl

theorem runCommand_of_decode {w : CmdWord} {i : Instr} (h : decode w = .instr i) (s : State) :
    runCommand w s = exec i s := by
  rw [runCommand, h]

/-! ## The statements of spec/40_demodulator.md R121 to R130 -/

/-- Settles O20: the model's signed reading is the library's, and the sign of the minimum is a question about two bits. -/
theorem classifyBySign : Obligations.ClassifyBySign := fun s0 s1 =>
  ⟨classify_eq_neg_iff_toInt s0 s1, classify_eq_neg_iff_signBit s0 s1, classify_eq_pos_iff_signBit s0 s1⟩

/-- Settles O23: the pushed `0` only appends, and the appended register is the old one shifted by one place. -/
theorem sampleEndsLongRun : Obligations.SampleEndsLongRun := by
  intro s s0 s1 hpol hrun
  rw [exec_sample_transition hpol, endRun_long hrun, ← shiftIn_false]
  rfl

/-- Settles O19: the two cleared groups are the five fields; the words of opcode 0x02 all decode to NEWPASS. -/
theorem newpassResult : Obligations.NewpassResult := fun s =>
  ⟨exec_newpass s, fun _ hop => runCommand_of_decode (decode_op_newpass hop) s⟩

/-- Settles O21: without a transition only the counter is written. -/
theorem sampleWithoutTransition : Obligations.SampleWithoutTransition := by
  intro s s0 s1 hpol
  rw [exec_sample_same hpol, ← nextRun_eq_ite]
  rfl

/-- Settles O22: the end of a noise run does nothing, so only the new run is written. -/
theorem sampleEndsNoiseRun : Obligations.SampleEndsNoiseRun := by
  intro s s0 s1 hpol hrun
  rw [exec_sample_transition hpol, endRun_noise hrun]
  rfl

/-- Settles O24: the end of a short run, by the toggle it finds. -/
theorem sampleEndsShortRun : Obligations.SampleEndsShortRun := by
  intro s s0 s1 hpol hmin hmax
  rw [exec_sample_transition hpol, endRun_short hmin hmax]
  constructor
  · intro hset
    rw [hset]
    rfl
  · intro hclear
    rw [hclear]
    rfl

end Sys2Proof.Proofs
end

section
/-! SUPPORT. The step that cuts a frame, and which commands can write the latch
(spec/42_frame_parser_latch.md R160, R171 to R173, R175). -/

open Sys2Proof Sys2Proof.Machine Sys2Proof.Laws

namespace Sys2Proof.Proofs

/-! ## The step that cuts a frame -/

section
variable {s : State} {s0 s1 : Amplitude} {frame : Frame}

/-- A pushed `1` that completes the sync word on more than 80 bits hands the trailing 80 bits to the parser, with the
accumulator cleared (41_frame_sync.md R143, R144). -/
theorem pushBit_true_cut (hframe : frame = s.sr >>> 1 ||| 0x80000000000000000000#80) (hlen : 80 ≤ s.len.toNat)
    (hsync : frame.extractLsb' 64 16 = 0xBFFC#16) : pushBit true s = parseAndLatch frame (clearAccumulator s) := by
  rw [← shiftIn_true] at hframe
  subst hframe
  exact pushBit_cut ((cutNow_nextLen _ _).mpr ⟨hlen, hsync⟩)

/-- A `SAMPLE` that ends a short run with the toggle set parses the frame its pushed `1` cuts. -/
theorem exec_sample_cut (hframe : frame = s.sr >>> 1 ||| 0x80000000000000000000#80)
    (hpol : s.lastPol ≠ some (classify s0 s1)) (hmin : 7 ≤ s.run.toNat) (hmax : s.run.toNat ≤ 14)
    (htoggle : s.toggle = true) (hlen : 80 ≤ s.len.toNat) (hsync : frame.extractLsb' 64 16 = 0xBFFC#16) :
    exec (.sample s0 s1) s =
      .next (startRun (classify s0 s1) (setToggle false (parseAndLatch frame (clearAccumulator s)))) := by
  rw [exec_sample_transition hpol, endRun_short hmin hmax, if_pos htoggle, pushBit_true_cut hframe hlen hsync]

end

/-! ## What keeps the latch -/

/-- The latch group of `t` is that of `s`. -/
def LatchKept (s t : State) : Prop := t.tc = s.tc ∧ t.synced = s.synced ∧ t.ubits = s.ubits ∧ t.flags = s.flags

/-- The step from `s` to `t` emitted a FRAME event with the timecode it latched. -/
def LatchesFrame (s t : State) : Prop := t.evtTrace = s.evtTrace ++ [.frame t.tc]

theorem latchKept_refl (s : State) : LatchKept s s := ⟨rfl, rfl, rfl, rfl⟩

/-- A pushed bit writes the latch only with the frame it cuts. -/
theorem pushBit_latchKept_or_latchesFrame (b : Bool) (s : State) :
    LatchKept s (pushBit b s) ∨ LatchesFrame s (pushBit b s) := by
  rcases pushBit_cases b s with h | h | h <;> rw [h]
  · exact .inl (latchKept_refl s)
  · exact .inr rfl
  · exact .inl (latchKept_refl s)

/-- An observed polarity writes the latch only with the frame that the bit it pushes cuts. -/
theorem observePolarity_latchKept_or_latchesFrame (p : Polarity) (s : State) :
    LatchKept s (observePolarity p s) ∨ LatchesFrame s (observePolarity p s) := by
  rcases observePolarity_cases p s with h | h | h | h | h <;> rw [h]
  · exact .inl (latchKept_refl s)
  · exact .inl (latchKept_refl s)
  · exact .inl (latchKept_refl s)
  · exact pushBit_latchKept_or_latchesFrame false s
  · exact pushBit_latchKept_or_latchesFrame true s

/-- An observed timecode writes the aggregator or a fault, never the latch. -/
theorem observe_latchKept (tc : Timecode) (idx : Index) (s : State) : LatchKept s (observe tc idx s) := by
  rcases observe_cases tc idx s with ⟨-, -, h⟩ | ⟨-, ⟨-, h⟩ | ⟨-, -, h⟩ | ⟨-, -, -, h⟩ | ⟨-, -, -, h⟩⟩ <;>
    exact h ▸ latchKept_refl s

theorem closeInput_latchKept (n : Index) (s : State) : LatchKept s (closeInput n s) := by
  rcases closeInput_cases n s with ⟨-, h⟩ | ⟨-, h⟩ <;> exact h ▸ latchKept_refl s

/-- Each of the eight commands other than `SAMPLE` and `SRST` keeps the latch. -/
theorem exec_latchKept {i : Instr} {s t : State} (hsample : i.opcode ≠ 0x01#8) (hsrst : i.opcode ≠ 0x03#8)
    (h : exec i s = .next t) : LatchKept s t := by
  have hcases := exec_cases i s t h
  cases i with
  | nop => exact hcases ▸ latchKept_refl s
  | sample s0 s1 => exact absurd rfl hsample
  | newpass => exact hcases ▸ latchKept_refl s
  | srst => exact absurd rfl hsrst
  | obs tc idx =>
    rcases hcases with ⟨-, rfl⟩ | ⟨-, rfl⟩
    · exact observe_latchKept tc idx s
    · exact latchKept_refl s
  | obsl idx => exact hcases ▸ observe_latchKept s.tc idx s
  | endInput => exact hcases ▸ closeInput_latchKept s.lastIdx s
  | endat n =>
    rcases hcases with ⟨-, -, rfl⟩ | ⟨-, rfl⟩
    · exact latchKept_refl s
    · exact closeInput_latchKept n s
  | rdreg sel => rcases hcases with ⟨-, v, rfl⟩ | ⟨-, rfl⟩ <;> exact latchKept_refl s
  | wrreg sel v => rcases hcases with ⟨-, rfl⟩ | ⟨-, rfl⟩ | ⟨-, rfl⟩ | ⟨-, rfl⟩ <;> exact latchKept_refl s

/-- A command word of any other opcode keeps the latch, a reserved one included. -/
theorem runCommand_latchKept {w : CmdWord} {s t : State} (hsample : CmdWord.op w ≠ 0x01#8)
    (hsrst : CmdWord.op w ≠ 0x03#8) (h : runCommand w s = .next t) : LatchKept s t := by
  rcases runCommand_cases w s with ⟨i, -, hop, hrun⟩ | hrun
  · rw [← hop] at hsample hsrst
    exact exec_latchKept hsample hsrst (hrun.symm.trans h)
  · cases hrun.symm.trans h
    exact latchKept_refl s

/-! ## The statements of spec/42_frame_parser_latch.md R171 to R175 -/

/-- Settles O26: the step parses the cut frame on the cleared accumulator, and the parser accepts it. -/
theorem sampleLatchesCutFrame : Obligations.SampleLatchesCutFrame := by
  intro s s0 s1 frame hframe hpol hmin hmax htoggle hlen hsync haccept
  rw [exec_sample_cut hframe hpol hmin hmax htoggle hlen hsync,
    parseAndLatch_accepted frame (clearAccumulator s) haccept]
  rfl

/-- Settles O27: the step parses the cut frame on the cleared accumulator, and the parser rejects it. -/
theorem sampleRejectsCutFrame : Obligations.SampleRejectsCutFrame := by
  intro s s0 s1 frame hframe hpol hmin hmax htoggle hlen hsync hstrict hinvalid
  rw [exec_sample_cut hframe hpol hmin hmax htoggle hlen hsync,
    parseAndLatch_rejected frame (clearAccumulator s) hstrict hinvalid]
  rfl

/-- Settles O37: every other word keeps the latch, and a `SAMPLE` that does not keep it latches a frame. -/
theorem onlySampleAndResetWriteTheLatch : Obligations.OnlySampleAndResetWriteTheLatch := by
  refine ⟨fun _ _ _ hsample hsrst h => runCommand_latchKept hsample hsrst h, fun s t s0 s1 h hnoFrame => ?_⟩
  obtain rfl : t = observePolarity (classify s0 s1) s := exec_cases _ s t h
  exact (observePolarity_latchKept_or_latchesFrame _ s).resolve_right hnoFrame

end Sys2Proof.Proofs
end

section
/-! SUPPORT. A number put together digit by digit, lowest first, is a concatenation of the digits; the user bits and the
flag bits of a frame are two such numbers (spec/42_frame_parser_latch.md R166, R167). -/

open Sys2Proof Sys2Proof.Machine Sys2Proof.Laws

namespace Sys2Proof.Proofs

/-- The lowest digit of a number is the last part of the concatenation. -/
theorem ofNat_digit_add_mul {k : Nat} (w : Nat) (x : BitVec k) (v : Nat) :
    BitVec.ofNat (w + k) (x.toNat + 2 ^ k * v) = BitVec.ofNat w v ++ x := by
  apply BitVec.eq_of_toNat_eq
  rw [append_toNat, BitVec.toNat_ofNat, BitVec.toNat_ofNat, Nat.pow_add, Nat.mul_comm (2 ^ w), Nat.mod_mul,
    Nat.add_mul_mod_self_left, Nat.mod_eq_of_lt x.isLt, Nat.add_mul_div_left _ _ (Nat.two_pow_pos k),
    Nat.div_eq_of_lt x.isLt, Nat.zero_add, Nat.mul_comm, Nat.add_comm]

/-- The lowest nibble of a list of nibbles is the last part of the concatenation. -/
theorem ofNat_nibblesValue_cons (w : Nat) (x : BitVec 4) (ns : List Nat) :
    BitVec.ofNat (w + 4) (nibblesValue (x.toNat :: ns)) = BitVec.ofNat w (nibblesValue ns) ++ x :=
  ofNat_digit_add_mul w x (nibblesValue ns)

theorem ofNat_nibblesValue_singleton (x : BitVec 4) : BitVec.ofNat 4 (nibblesValue [x.toNat]) = x := by
  simp [nibblesValue]

/-- The lowest bit of a list of bits is the last part of the concatenation. -/
theorem ofNat_bitsValue_cons (w : Nat) (frame : Frame) (i : Nat) (bs : List Bool) :
    BitVec.ofNat (w + 1) (bitsValue (frame.getLsbD i :: bs)) =
      BitVec.ofNat w (bitsValue bs) ++ frame.extractLsb' i 1 := by
  rw [← ofNat_digit_add_mul, bitsValue, frameBit_eq, extract_toNat]
  rfl

theorem ofNat_bitsValue_singleton (frame : Frame) (i : Nat) :
    BitVec.ofNat 1 (bitsValue [frame.getLsbD i]) = frame.extractLsb' i 1 := by
  apply BitVec.eq_of_toNat_eq
  rw [bitsValue, frameBit_eq, bitsValue, extract_toNat, BitVec.toNat_ofNat]
  omega

/-- `userBits` takes the eight user nibbles of the layout, nibble 1 lowest (R166). -/
theorem userBits_eq_append (frame : Frame) : userBits frame =
    frame.extractLsb' 60 4 ++ frame.extractLsb' 52 4 ++ frame.extractLsb' 44 4 ++ frame.extractLsb' 36 4 ++
      frame.extractLsb' 28 4 ++ frame.extractLsb' 20 4 ++ frame.extractLsb' 12 4 ++ frame.extractLsb' 4 4 := by
  simp only [userBits, ltcLayout, fieldValue, List.map_cons, List.map_nil]
  rw [ofNat_nibblesValue_cons 28, ofNat_nibblesValue_cons 24, ofNat_nibblesValue_cons 20, ofNat_nibblesValue_cons 16,
    ofNat_nibblesValue_cons 12, ofNat_nibblesValue_cons 8, ofNat_nibblesValue_cons 4, ofNat_nibblesValue_singleton]

/-- `flagBits` takes the six flag positions of the layout, position 10 lowest (R167). -/
theorem flagBits_eq_append (frame : Frame) : flagBits frame =
    frame.extractLsb' 59 1 ++ frame.extractLsb' 58 1 ++ frame.extractLsb' 43 1 ++ frame.extractLsb' 27 1 ++
      frame.extractLsb' 11 1 ++ frame.extractLsb' 10 1 := by
  simp only [flagBits, ltcLayout, List.map_cons, List.map_nil]
  rw [ofNat_bitsValue_cons 5, ofNat_bitsValue_cons 4, ofNat_bitsValue_cons 3, ofNat_bitsValue_cons 2,
    ofNat_bitsValue_cons 1, ofNat_bitsValue_singleton]

/-! ## The statement of spec/42_frame_parser_latch.md R166 and R167 -/

/-- Settles O35: both words as concatenations of the frame's own slices. -/
theorem userBitsAndFlagBits : Obligations.UserBitsAndFlagBits := fun frame =>
  ⟨userBits_eq_append frame, flagBits_eq_append frame⟩

end Sys2Proof.Proofs
end

section
/-! SUPPORT. The segment aggregator: what an accepted observation does to the segment, and how END and ENDAT close it
(spec/43_segment_aggregator.md R191 to R199). -/

open Sys2Proof Sys2Proof.Machine Sys2Proof.Laws

namespace Sys2Proof.Proofs

/-! ## Observations -/

section
variable {s u : State} {t : Timecode} {idx : Index}

/-- R191, R195: an observation is accepted when its index lies above the last one, or when it is the first. -/
theorem observe_inOrder (h : s.seen = true → s.lastIdx < idx) :
    observe t idx s = extendSegment t idx (noteIndex idx s) := by
  refine if_neg fun hstale => ?_
  obtain ⟨hseen, hle⟩ := Bool.and_eq_true_iff.mp hstale
  exact BitVec.not_le.mpr (h hseen) (of_decide_eq_true hle)

theorem extendSegment_sentinel : extendSegment 0#32 idx s = s := if_pos rfl

theorem extendSegment_closed (ht : t ≠ 0#32) (hclosed : s.segOpen = false) :
    extendSegment t idx s = beginSegment t idx s :=
  (if_neg ht).trans (if_pos (by rw [hclosed]; rfl))

theorem extendSegment_changed (ht : t ≠ 0#32) (hopen : s.segOpen = true) (hprev : t ≠ s.prevTc) :
    extendSegment t idx s = beginSegment t idx (emitSeg (closingRecord (idx - 1#32) s) s) :=
  (if_neg ht).trans ((if_neg (by rw [hopen]; decide)).trans (if_neg hprev))

/-- Where a segment is open, the next one begins without a write of `open` (R194). -/
theorem beginSegment_open (hopen : s.segOpen = true) :
    beginSegment t idx s = { s with prevTc := t, segStart := idx } := by
  rw [beginSegment, ← hopen]

/-- A record that ends just before `idx` counts the indices from the start of its segment up to `idx` (R194). -/
theorem closingRecord_before (idx : Index) (s : State) :
    (closingRecord (idx - 1#32) s).count = idx - s.segStart := by
  change idx - 1#32 - s.segStart + 1#32 = idx - s.segStart
  bv_omega

/-- `OBS` observes a decimal operand and `OBSL` the latch, both with the one operation `observe` (R190, R196). -/
theorem exec_obs_obsl_of_observe (h : observe t idx s = u) :
    (isDecimal t = true → exec (.obs t idx) s = .next u) ∧ (s.tc = t → exec (.obsl idx) s = .next u) := by
  subst h
  exact ⟨fun hdec => congrArg _ (if_pos hdec), fun htc => htc ▸ rfl⟩

end

/-! ## The end of a source -/

section
variable {s : State} {n : Index}

theorem closeInput_open (hopen : s.segOpen = true) :
    closeInput n s = clearAggregator (emitSeg (closingRecord n s) s) :=
  congrArg _ (if_pos hopen)

theorem closeInput_closed (hclosed : s.segOpen = false) : closeInput n s = clearAggregator s :=
  congrArg _ (if_neg (by rw [hclosed]; decide))

theorem exec_endInput (s : State) : exec .endInput s = .next (closeInput s.lastIdx s) := rfl

/-- R199: `ENDAT` at or after the last index, or with nothing observed, closes at its operand. -/
theorem exec_endat_inOrder (h : s.seen = true → s.lastIdx ≤ n) : exec (.endat n) s = .next (closeInput n s) := by
  refine congrArg _ (if_neg fun hstale => ?_)
  obtain ⟨hseen, hlt⟩ := Bool.and_eq_true_iff.mp hstale
  exact BitVec.not_lt.mpr (h hseen) (of_decide_eq_true hlt)

/-- R199: `ENDAT` before the last index is out of order. -/
theorem exec_endat_stale (hseen : s.seen = true) (hlt : n < s.lastIdx) :
    exec (.endat n) s = .next (raiseFault .order s) :=
  congrArg _ (if_pos (Bool.and_eq_true_iff.mpr ⟨hseen, decide_eq_true hlt⟩))

/-- The ORDER fault writes its own sticky bit and no other (60_exceptions.md R252, R256). -/
theorem raiseFault_order (s : State) : raiseFault .order s = { s with
    fOrder := true
    fcode := if s.fcode = 0#4 then 4#4 else s.fcode
    evtTrace := s.evtTrace ++ [.fault .order] } := by
  simp [raiseFault, recordFault, emitEvt, FaultCode.code]

end

/-! ## The statements of spec/43_segment_aggregator.md R192 to R194, R198 and R199 -/

/-- Settles O38: the sentinel leaves the segment as it is, and it is decimal. -/
theorem sentinelObservationOnlyAdvancesTheIndex : Obligations.SentinelObservationOnlyAdvancesTheIndex := by
  intro s idx horder
  have hobserve : observe 0#32 idx s = noteIndex idx s := (observe_inOrder horder).trans extendSegment_sentinel
  obtain ⟨hobs, hobsl⟩ := exec_obs_obsl_of_observe hobserve
  exact ⟨hobs (by decide), hobsl⟩

/-- Settles O39: with no segment open, the accepted observation begins one. -/
theorem firstObservationOpensSegment : Obligations.FirstObservationOpensSegment := fun _ _ _ horder ht hclosed =>
  exec_obs_obsl_of_observe ((observe_inOrder horder).trans (extendSegment_closed ht hclosed))

/-- Settles O41: the accepted observation emits the record that ends just before it and begins a segment. -/
theorem changedTimecodeEmitsRecord : Obligations.ChangedTimecodeEmitsRecord := by
  intro s t idx horder ht hopen hprev u hu
  refine exec_obs_obsl_of_observe ?_
  calc observe t idx s
      = extendSegment t idx (noteIndex idx s) := observe_inOrder horder
    _ = beginSegment t idx (emitSeg (closingRecord (idx - 1#32) s) (noteIndex idx s)) :=
        extendSegment_changed ht hopen hprev
    _ = { emitSeg (closingRecord (idx - 1#32) s) (noteIndex idx s) with prevTc := t, segStart := idx } :=
        beginSegment_open hopen
    _ = u := by rw [hu, ← closingRecord_before idx s]; rfl

/-- Settles O44: `END` closes the input at the last index; the words of opcode 0x12 all decode to it. -/
theorem endClosesAtTheLastIndex : Obligations.EndClosesAtTheLastIndex := fun s =>
  ⟨fun hopen => congrArg _ (closeInput_open hopen), fun hclosed => congrArg _ (closeInput_closed hclosed),
    fun _ hop => runCommand_of_decode (decode_op_endInput hop) s⟩

/-- Settles O45: `ENDAT` in order closes the input at its operand, which at the last index is what `END` does; before
the last index it is the ORDER fault. -/
theorem endatClosesAtTheGivenIndex : Obligations.EndatClosesAtTheGivenIndex := by
  refine fun s n => ⟨fun horder => ?_, fun hseen hlt => ?_, fun w hop => ?_⟩
  · rw [exec_endat_inOrder horder]
    exact ⟨fun hopen => congrArg _ (closeInput_open hopen), fun hclosed => congrArg _ (closeInput_closed hclosed),
      fun hn => hn ▸ (exec_endInput s).symm⟩
  · rw [exec_endat_stale hseen hlt, raiseFault_order]
  · exact runCommand_of_decode (decode_op_endat hop) s

end Sys2Proof.Proofs
end

section
/-! SUPPORT. The register words by their fields, and the control commands on them
(spec/10_state.md R38 to R46; spec/44_control.md R220 to R228). -/

open Sys2Proof Sys2Proof.Machine Sys2Proof.Laws

namespace Sys2Proof.Proofs

/-! ## The register words -/

/-- A single bit, compared as a number. -/
theorem getLsbD_eq_iff_toNat {m : Nat} (x : BitVec m) (i : Nat) (b : Bool) :
    x.getLsbD i = b ↔ x.toNat / 2 ^ i % 2 = b.toNat := by
  rw [getLsbD_arith]
  cases b <;> simp

/-- A slice as the number it holds. -/
theorem extract_eq_ofNat {m : Nat} (x : BitVec m) (lo n : Nat) : x.extractLsb' lo n = BitVec.ofNat n (x.toNat / 2 ^ lo) :=
  congrArg (BitVec.ofNat n) (Nat.shiftRight_eq_div_pow x.toNat lo)

/-- Zero-extension written as a concatenation, as the number it keeps. -/
theorem zero_append_eq_ofNat {k n : Nat} (x : BitVec n) : 0#k ++ x = BitVec.ofNat (k + n) x.toNat := by
  have hnum : (0#k ++ x).toNat = x.toNat := by simp
  rw [← hnum, BitVec.ofNat_toNat, BitVec.setWidth_eq]

/-- A word reads as `CTRL` exactly when its two fields and its two reserved ranges do (10_state.md R40). -/
theorem eq_ctrlWord_iff (v : RegValue) (s : State) : v = ctrlWord s ↔
    v.getLsbD 0 = s.strict ∧ v.extractLsb' 1 7 = 0#7 ∧ v.extractLsb' 8 6 = s.ffMax ∧ v.extractLsb' 14 18 = 0#18 := by
  have hstrict := s.strict.toNat_lt
  simp only [← BitVec.toNat_inj, ctrlWord_toNat, extract_toNat, getLsbD_eq_iff_toNat, BitVec.toNat_ofNat]
  omega

/-- The fields of `STATUS` (10_state.md R41). -/
theorem statusWord_fields (s : State) :
    (statusWord s).getLsbD 0 = s.synced ∧ (statusWord s).getLsbD 1 = s.segOpen ∧ (statusWord s).getLsbD 2 = s.malformed ∧
    (statusWord s).getLsbD 3 = s.seen ∧ (statusWord s).getLsbD 4 = s.fIllcmd ∧ (statusWord s).getLsbD 5 = s.fIllreg ∧
    (statusWord s).getLsbD 6 = s.fBadtc ∧ (statusWord s).getLsbD 7 = s.fOrder ∧
    (statusWord s).extractLsb' 8 4 = s.fcode ∧ (statusWord s).extractLsb' 12 20 = 0#20 := by
  have hbit : ∀ b : Bool, b.toNat < 2 := Bool.toNat_lt
  have hsynced := hbit s.synced
  have hopen := hbit s.segOpen
  have hmalformed := hbit s.malformed
  have hseen := hbit s.seen
  have hillcmd := hbit s.fIllcmd
  have hillreg := hbit s.fIllreg
  have hbadtc := hbit s.fBadtc
  have horder := hbit s.fOrder
  simp only [← BitVec.toNat_inj, getLsbD_eq_iff_toNat, extract_toNat, statusWord_toNat, BitVec.toNat_ofNat]
  omega

/-- What a write of CTRL leaves to read: the operand with its reserved positions cleared (10_state.md R40). -/
theorem ctrlWord_writeCtrl (v : RegValue) (s : State) : ctrlWord (writeCtrl v s) = v &&& 0x00003F01#32 := by
  refine ((eq_ctrlWord_iff _ _).mpr ?_).symm
  simp only [BitVec.getLsbD_and, BitVec.extractLsb'_and]
  exact ⟨Bool.and_true _, BitVec.and_zero, BitVec.and_allOnes, BitVec.and_zero⟩

/-- What a write of RATE leaves to read: the low half of the operand (10_state.md R46). -/
theorem zero_append_low_half (v : RegValue) : 0#16 ++ v.extractLsb' 0 16 = v &&& 0x0000FFFF#32 := by
  apply BitVec.eq_of_toNat_eq
  rw [append_toNat, extract_toNat, BitVec.toNat_and]
  simpa using (Nat.and_two_pow_sub_one_eq_mod v.toNat 16).symm

/-! ## The commands -/

theorem raiseFault_illreg (s : State) : raiseFault .illreg s = { s with
    fIllreg := true
    fcode := if s.fcode = 0#4 then 2#4 else s.fcode
    evtTrace := s.evtTrace ++ [.fault .illreg] } := by
  simp [raiseFault, recordFault, emitEvt, FaultCode.code]

theorem regRead_unmapped {sel : Sel} (h : 0x06 < sel.toNat) (s : State) : regRead sel s = none := by
  have hne : ∀ k : Sel, k.toNat ≤ 6 → sel ≠ k := fun k hk heq => absurd (heq ▸ h) (by omega)
  simp [regRead, hne]

theorem exec_rdreg_mapped {sel : Sel} {v : RegValue} {s : State} (h : regRead sel s = some v) :
    exec (.rdreg sel) s = .next { s with rspTrace := s.rspTrace ++ [⟨false, v⟩] } := by
  simp only [exec, execRdreg, h, emitRsp]

theorem exec_rdreg_unmapped {sel : Sel} {s : State} (h : regRead sel s = none) :
    exec (.rdreg sel) s = .next (raiseFault .illreg (emitRsp true 0#32 s)) := by
  simp only [exec, execRdreg, h]

theorem exec_wrreg_refused {sel : Sel} (h : sel ∉ [0x00#8, 0x05#8, 0x06#8]) (v : RegValue) (s : State) :
    exec (.wrreg sel v) s = .next (raiseFault .illreg s) := by
  simp only [List.mem_cons, List.not_mem_nil, or_false, not_or] at h
  simp [exec, execWrreg, regWrite, h]

theorem exec_wrreg_ctrl (v : RegValue) (s : State) : exec (.wrreg 0x00#8 v) s = .next (writeCtrl v s) := rfl

theorem exec_wrreg_srcid (v : RegValue) (s : State) : exec (.wrreg 0x05#8 v) s = .next (writeSrcid v s) := rfl

theorem exec_wrreg_rate (v : RegValue) (s : State) : exec (.wrreg 0x06#8 v) s = .next (writeRate v s) := rfl

theorem writeCtrl_eq (v : RegValue) (s : State) : writeCtrl v s =
    { s with strict := decide (v.toNat % 2 = 1), ffMax := BitVec.ofNat 6 (v.toNat / 256) } := by
  rw [writeCtrl, getLsbD_arith, extract_eq_ofNat, Nat.pow_zero, Nat.div_one]
  rfl

theorem writeRate_eq (v : RegValue) (s : State) : writeRate v s = { s with rate := BitVec.ofNat 16 v.toNat } := by
  rw [writeRate, extract_eq_ofNat, Nat.pow_zero, Nat.div_one]

theorem encode_wrreg_ctrl (v : RegValue) :
    encode (.wrreg 0x00#8 v) = BitVec.ofNat 72 (0x210000000000000000 + v.toNat) := by
  simp only [encode_eq_iff, Instr.opcode, Instr.operandA, Instr.operandB, append_toNat, BitVec.toNat_ofNat]
  omega

theorem statusWord_fullReset (s : State) : statusWord (fullReset s) = 0#32 :=
  calc statusWord (fullReset s)
      = statusWord State.reset := rfl
    _ = 0#32 := by decide

/-- `WRCTL v` as one command run: the write of CTRL (44_control.md R228). -/
theorem execList_wrctl (v : RegValue) (s : State) :
    execList (Pseudo.expand (.wrctl v)) s = .next (writeCtrl v s) := rfl

/-! ## The statements of spec/44_control.md R220 to R228 -/

/-- Settles O16: each mapped selector answers its register word, of which CTRL and STATUS are taken apart into fields; no
selector above 6 is mapped. -/
theorem rdregResult : Obligations.RdregResult := by
  intro s
  refine ⟨⟨ctrlWord s, exec_rdreg_mapped rfl, (eq_ctrlWord_iff _ s).mp rfl⟩,
    ⟨statusWord s, exec_rdreg_mapped rfl, statusWord_fields s⟩, exec_rdreg_mapped rfl, exec_rdreg_mapped rfl,
    exec_rdreg_mapped (congrArg some (zero_append_eq_ofNat s.flags)), exec_rdreg_mapped rfl,
    exec_rdreg_mapped (congrArg some (zero_append_eq_ofNat s.rate)), fun sel hsel => ?_, fun w hop => ?_⟩
  · rw [exec_rdreg_unmapped (regRead_unmapped hsel s), raiseFault_illreg]
    rfl
  · rw [runCommand_of_decode (decode_op_rdreg hop), opndSel_eq]

/-- Settles O17: the three writable selectors are the three register writes, read back from the word they leave; every
other selector is refused with ILLREG. -/
theorem wrregResult : Obligations.WrregResult := fun s v =>
  ⟨⟨_, exec_wrreg_ctrl v s, writeCtrl_eq v s, congrArg some (ctrlWord_writeCtrl v s)⟩,
    ⟨_, exec_wrreg_srcid v s, rfl, rfl⟩,
    ⟨_, exec_wrreg_rate v s, writeRate_eq v s, congrArg some (zero_append_low_half v)⟩,
    fun _ hsel => (exec_wrreg_refused hsel v s).trans (congrArg _ (raiseFault_illreg s)),
    fun w hop => opndSel_eq w ▸ runCommand_of_decode (decode_op_wrreg hop) s⟩

/-- Settles O13: the words of opcode 0x00, the all-zero word among them, all decode to NOP. -/
theorem nopChangesNothing : Obligations.NopChangesNothing := fun s =>
  ⟨rfl, fun _ hop => runCommand_of_decode (decode_op_nop hop) s, runCommand_of_decode (decode_op_nop rfl) s⟩

/-- Settles O14: `SRST` and the `rst` pin are the one full reset, which leaves `STATUS` at 0. -/
theorem srstResult : Obligations.SrstResult := fun s =>
  ⟨rfl, fun _ hop => runCommand_of_decode (decode_op_srst hop) s, fun _ hrst => if_pos hrst,
    fullReset s, rfl, exec_rdreg_mapped (congrArg some (statusWord_fullReset s))⟩

/-- Settles O18: `PERMISSIVE` and `STRICTMODE` are `WRCTL` at 0x2700 and 0x2701, whose bits 13:8 are 39. -/
theorem pseudoInstructionWords : Obligations.PseudoInstructionWords :=
  ⟨rfl, rfl, rfl, rfl, rfl, fun v => congrArg ([·]) (encode_wrreg_ctrl v), 
    fun s => ⟨execList_wrctl 0x00002700#32 s, execList_wrctl 0x00002701#32 s⟩⟩

end Sys2Proof.Proofs
end

section
/-! SUPPORT. Raising a fault: what it sets, what a second one leaves, and where its bit and its code can be read
(spec/60_exceptions.md R250 to R256). -/

open Sys2Proof Sys2Proof.Machine Sys2Proof.Laws

namespace Sys2Proof.Proofs

/-! ## The fault operation -/

theorem raiseFault_illcmd (s : State) : raiseFault .illcmd s = { s with
    fIllcmd := true
    fcode := if s.fcode = 0#4 then 1#4 else s.fcode
    evtTrace := s.evtTrace ++ [.fault .illcmd] } := by
  simp [raiseFault, recordFault, emitEvt, FaultCode.code]

theorem raiseFault_badtc (s : State) : raiseFault .badtc s = { s with
    fBadtc := true
    fcode := if s.fcode = 0#4 then 3#4 else s.fcode
    evtTrace := s.evtTrace ++ [.fault .badtc] } := by
  simp [raiseFault, recordFault, emitEvt, FaultCode.code]

/-- Raising a fault sets its own sticky bit and leaves the other three. -/
theorem faultBit_raiseFault (c c' : FaultCode) (s : State) :
    faultBit c' (raiseFault c s) = (faultBit c' s || decide (c' = c)) := by
  simp only [eq_comm (a := c')]
  cases c' <;> rfl

theorem faultBit_raiseFault_self (c : FaultCode) (s : State) : faultBit c (raiseFault c s) = true := by
  simp [faultBit_raiseFault]

/-- A fault whose bit is set already, with a first code recorded, has nothing left to record. -/
theorem recordFault_of_recorded {c : FaultCode} {s : State} (hcode : s.fcode ≠ 0#4) (hbit : faultBit c s = true) :
    recordFault c s = s := by
  cases s
  cases c <;> simp_all [recordFault, faultBit]

/-- The data of a fault event is the fault's code. -/
theorem fault_event_data (c : FaultCode) : (Event.fault c).data = BitVec.ofNat 32 c.code.toNat :=
  zero_append_eq_ofNat c.code

/-- The sticky bit of a fault stands in `STATUS` at bit 3 plus its code (10_state.md R41). -/
theorem statusWord_faultBit (c : FaultCode) (s : State) :
    (statusWord s).getLsbD (3 + c.code.toNat) = faultBit c s := by
  obtain ⟨-, -, -, -, hillcmd, hillreg, hbadtc, horder, -⟩ := statusWord_fields s
  cases c with
  | illcmd => exact hillcmd
  | illreg => exact hillreg
  | badtc => exact hbadtc
  | order => exact horder

/-! ## The commands that raise one -/

theorem runCommand_reserved {w : CmdWord} {op : BitVec 8} (h : decode w = .reserved op) (s : State) :
    runCommand w s = .next (raiseFault .illcmd s) := by
  rw [runCommand, h]

/-- R259: the decimal check comes before the index check. -/
theorem exec_obs_nonDecimal {t : Timecode} (h : isDecimal t = false) (idx : Index) (s : State) :
    exec (.obs t idx) s = .next (raiseFault .badtc s) :=
  congrArg _ (if_neg (by rw [h]; decide))

/-- R195: an observation whose index is not above the last one is out of order. -/
theorem observe_stale {idx : Index} {s : State} (hseen : s.seen = true) (hle : idx ≤ s.lastIdx) (t : Timecode) :
    observe t idx s = raiseFault .order s :=
  if_pos (Bool.and_eq_true_iff.mpr ⟨hseen, decide_eq_true hle⟩)

theorem isDecimal_eq_false_of_digit {t : Timecode} {k : Nat} (hk : k < 8) (hdigit : 9 < t.toNat / 16 ^ k % 16) :
    isDecimal t = false :=
  Bool.eq_false_iff.mpr fun hdec => absurd ((isDecimal_iff t).mp hdec k hk) (by omega)

/-! ## The statements of spec/60_exceptions.md R253, R255 and R256 -/

/-- Settles O9: a reserved word decodes to no command, and the block takes ILLCMD. -/
theorem reservedOpcodeRaisesIllcmd : Obligations.ReservedOpcodeRaisesIllcmd := by
  refine ⟨fun s w hop => ?_, _, rfl, by decide, by decide⟩
  rw [runCommand_reserved (decode_reserved w hop), raiseFault_illcmd]

/-- Settles O42: one digit above 9 fails the decimal check, which comes first. -/
theorem nonDecimalObservationRaisesBadtc : Obligations.NonDecimalObservationRaisesBadtc := by
  refine ⟨fun s t idx ⟨k, hk, hdigit⟩ => ?_, fun idx => ⟨_, exec_obs_nonDecimal (by decide) idx _, by decide, by decide⟩⟩
  rw [exec_obs_nonDecimal (isDecimal_eq_false_of_digit hk hdigit), raiseFault_badtc]

/-- Settles O43: a stale observation, by `OBS` or `OBSL`, and a stale `ENDAT` are the one ORDER fault. -/
theorem staleIndexRaisesOrder : Obligations.StaleIndexRaisesOrder := by
  refine ⟨fun s u hseen hu => ?_, _, rfl, by decide⟩
  rw [← raiseFault_order] at hu
  subst hu
  exact ⟨fun t idx hdec hle => (exec_obs_obsl_of_observe (observe_stale hseen hle t)).1 hdec,
    fun idx hle => (exec_obs_obsl_of_observe (observe_stale hseen hle s.tc)).2 rfl,
    fun n hlt => exec_endat_stale hseen hlt⟩

end Sys2Proof.Proofs
end

section
/-! SUPPORT. The fault table, and every taken word said once as far as faults go: it raises the fault of the table, it is
the reset, or it keeps the fault bits (spec/60_exceptions.md R250, R252, R262). -/

open Sys2Proof Sys2Proof.Machine Sys2Proof.Laws

namespace Sys2Proof.Proofs

/-! ## The fault table -/

/-- The fault table of R250: what was decoded raises the fault `c` in the state `s`. -/
inductive Raises (s : State) : Decoded → FaultCode → Prop where
  | reserved (op : BitVec 8) : Raises s (.reserved op) .illcmd
  | rdreg {sel : Sel} (hsel : 0x06 < sel.toNat) : Raises s (.instr (.rdreg sel)) .illreg
  | wrreg {sel : Sel} {v : RegValue} (hsel : sel ∉ [0x00#8, 0x05#8, 0x06#8]) : Raises s (.instr (.wrreg sel v)) .illreg
  | obsDigit {t : Timecode} {idx : Index} (hdec : isDecimal t = false) : Raises s (.instr (.obs t idx)) .badtc
  | obsIndex {t : Timecode} {idx : Index} (hseen : s.seen = true) (hdec : isDecimal t = true) (hle : idx ≤ s.lastIdx) :
      Raises s (.instr (.obs t idx)) .order
  | obsl {idx : Index} (hseen : s.seen = true) (hle : idx ≤ s.lastIdx) : Raises s (.instr (.obsl idx)) .order
  | endat {n : Index} (hseen : s.seen = true) (hlt : n < s.lastIdx) : Raises s (.instr (.endat n)) .order

/-- What a faulting command does besides its fault: the error response of a refused read (R252). -/
def errorResponse (s : State) : Decoded → State
  | .instr (.rdreg _) => emitRsp true 0#32 s
  | _ => s

/-- The error response changes the response trace alone, and only for a read. -/
theorem errorResponse_cases (s : State) (d : Decoded) :
    errorResponse s d = s ∨ (∃ sel, d = .instr (.rdreg sel)) ∧ errorResponse s d = emitRsp true 0#32 s := by
  unfold errorResponse
  split
  · exact .inr ⟨⟨_, rfl⟩, rfl⟩
  · exact .inl rfl

@[simp] theorem errorResponse_evtTrace (s : State) (d : Decoded) : (errorResponse s d).evtTrace = s.evtTrace := by
  rcases errorResponse_cases s d with h | ⟨-, h⟩ <;> rw [h]
  rfl

@[simp] theorem errorResponse_fcode (s : State) (d : Decoded) : (errorResponse s d).fcode = s.fcode := by
  rcases errorResponse_cases s d with h | ⟨-, h⟩ <;> rw [h]
  rfl

@[simp] theorem errorResponse_malformed (s : State) (d : Decoded) : (errorResponse s d).malformed = s.malformed := by
  rcases errorResponse_cases s d with h | ⟨-, h⟩ <;> rw [h]
  rfl

@[simp] theorem faultBit_errorResponse (c : FaultCode) (s : State) (d : Decoded) :
    faultBit c (errorResponse s d) = faultBit c s := by
  rcases errorResponse_cases s d with h | ⟨-, h⟩ <;> rw [h]
  cases c <;> rfl

/-- A word in the table takes its fault, after the error response if it is a read. -/
theorem Raises.runCommand_eq {w : CmdWord} {s : State} {c : FaultCode} (h : Raises s (decode w) c) :
    runCommand w s = .next (raiseFault c (errorResponse s (decode w))) := by
  rw [runCommand]
  generalize decode w = d at h ⊢
  cases h with
  | reserved op => rfl
  | rdreg hsel => exact exec_rdreg_unmapped (regRead_unmapped hsel s)
  | wrreg hsel => exact exec_wrreg_refused hsel _ s
  | obsDigit hdec => exact exec_obs_nonDecimal hdec _ s
  | obsIndex hseen hdec hle => exact (exec_obs_obsl_of_observe (observe_stale hseen hle _)).1 hdec
  | obsl hseen hle => exact (exec_obs_obsl_of_observe (observe_stale hseen hle s.tc)).2 rfl
  | endat hseen hlt => exact exec_endat_stale hseen hlt

/-- Only the words of the three reserved ranges decode to no command (30_encoding.md R88). -/
theorem op_notMem_of_decode_reserved {w : CmdWord} {op : BitVec 8} (h : decode w = .reserved op) :
    CmdWord.op w ∉ [0x00#8, 0x01#8, 0x02#8, 0x03#8, 0x10#8, 0x11#8, 0x12#8, 0x13#8, 0x20#8, 0x21#8] := by
  intro hmem
  simp only [List.mem_cons, List.not_mem_nil, or_false] at hmem
  rcases hmem with hop | hop | hop | hop | hop | hop | hop | hop | hop | hop <;> simp [decode, hop] at h

/-- A selector is refused for a write when its number is none of the three writable ones (44_control.md R226). -/
theorem notMem_writable_iff (sel : Sel) :
    sel ∉ [0x00#8, 0x05#8, 0x06#8] ↔ sel.toNat ≠ 0x00 ∧ sel.toNat ≠ 0x05 ∧ sel.toNat ≠ 0x06 := by
  simp [← BitVec.toNat_inj]

/-- The table as R250 writes it, with a row for each fault. -/
theorem raises_decode_iff (w : CmdWord) (s : State) (c : FaultCode) : Raises s (decode w) c ↔
    (c = .illcmd ∧
      CmdWord.op w ∉ [0x00#8, 0x01#8, 0x02#8, 0x03#8, 0x10#8, 0x11#8, 0x12#8, 0x13#8, 0x20#8, 0x21#8]) ∨
    (c = .illreg ∧ ((∃ sel, decode w = .instr (.rdreg sel) ∧ 0x06 < sel.toNat) ∨
      ∃ sel v, decode w = .instr (.wrreg sel v) ∧ sel.toNat ≠ 0x00 ∧ sel.toNat ≠ 0x05 ∧ sel.toNat ≠ 0x06)) ∨
    (c = .badtc ∧ ∃ tc idx, decode w = .instr (.obs tc idx) ∧ isDecimal tc = false) ∨
    (c = .order ∧ s.seen = true ∧
      ((∃ tc idx, decode w = .instr (.obs tc idx) ∧ isDecimal tc = true ∧ idx ≤ s.lastIdx) ∨
        (∃ idx, decode w = .instr (.obsl idx) ∧ idx ≤ s.lastIdx) ∨
        ∃ n, decode w = .instr (.endat n) ∧ n < s.lastIdx)) := by
  simp only [← notMem_writable_iff]
  constructor
  · intro h
    generalize hd : decode w = d at h ⊢
    cases h with
    | reserved op => exact .inl ⟨rfl, op_notMem_of_decode_reserved hd⟩
    | rdreg hsel => exact .inr (.inl ⟨rfl, .inl ⟨_, rfl, hsel⟩⟩)
    | wrreg hsel => exact .inr (.inl ⟨rfl, .inr ⟨_, _, rfl, hsel⟩⟩)
    | obsDigit hdec => exact .inr (.inr (.inl ⟨rfl, _, _, rfl, hdec⟩))
    | obsIndex hseen hdec hle => exact .inr (.inr (.inr ⟨rfl, hseen, .inl ⟨_, _, rfl, hdec, hle⟩⟩))
    | obsl hseen hle => exact .inr (.inr (.inr ⟨rfl, hseen, .inr (.inl ⟨_, rfl, hle⟩)⟩))
    | endat hseen hlt => exact .inr (.inr (.inr ⟨rfl, hseen, .inr (.inr ⟨_, rfl, hlt⟩)⟩))
  · rintro (⟨rfl, hop⟩ | ⟨rfl, ⟨sel, hd, hsel⟩ | ⟨sel, v, hd, hsel⟩⟩ | ⟨rfl, tc, idx, hd, hdec⟩ |
      ⟨rfl, hseen, ⟨tc, idx, hd, hdec, hle⟩ | ⟨idx, hd, hle⟩ | ⟨n, hd, hlt⟩⟩)
    · exact decode_reserved w hop ▸ .reserved _
    · exact hd ▸ .rdreg hsel
    · exact hd ▸ .wrreg hsel
    · exact hd ▸ .obsDigit hdec
    · exact hd ▸ .obsIndex hseen hdec hle
    · exact hd ▸ .obsl hseen hle
    · exact hd ▸ .endat hseen hlt

/-! ## Commands that raise no fault -/

/-- Between `s` and `t` no fault was raised and none was cleared; `MALFORMED` may have been set. -/
def KeepsFaults (s t : State) : Prop :=
  (∀ c, t.evtTrace ≠ s.evtTrace ++ [.fault c]) ∧ (∀ c, faultBit c t = faultBit c s) ∧ t.fcode = s.fcode ∧
    (s.malformed = true → t.malformed = true)

theorem keepsFaults_refl (s : State) : KeepsFaults s s := ⟨by simp, fun _ => rfl, rfl, id⟩

/-- A pushed bit has at most the event of the frame it cuts, and a rejected frame only sets `MALFORMED`. -/
theorem pushBit_keepsFaults (b : Bool) (s : State) : KeepsFaults s (pushBit b s) := by
  rcases pushBit_cases b s with h | h | h <;> rw [h]
  · exact keepsFaults_refl s
  · exact ⟨by simp, fun _ => rfl, rfl, id⟩
  · exact ⟨by simp, fun _ => rfl, rfl, fun _ => rfl⟩

theorem observePolarity_keepsFaults (p : Polarity) (s : State) : KeepsFaults s (observePolarity p s) := by
  rcases observePolarity_cases p s with h | h | h | h | h <;> rw [h]
  · exact keepsFaults_refl s
  · exact keepsFaults_refl s
  · exact keepsFaults_refl s
  · exact pushBit_keepsFaults false s
  · exact pushBit_keepsFaults true s

/-- An observation is stale and raises ORDER, or it writes the aggregator alone. -/
theorem observe_raises_or_keepsFaults (tc : Timecode) (idx : Index) (s : State) :
    (s.seen = true ∧ idx ≤ s.lastIdx ∧ observe tc idx s = raiseFault .order s) ∨ KeepsFaults s (observe tc idx s) := by
  rcases observe_cases tc idx s with h | ⟨-, ⟨-, h⟩ | ⟨-, -, h⟩ | ⟨-, -, -, h⟩ | ⟨-, -, -, h⟩⟩
  · exact .inl h
  all_goals exact .inr (h ▸ keepsFaults_refl s)

theorem closeInput_keepsFaults (n : Index) (s : State) : KeepsFaults s (closeInput n s) := by
  rcases closeInput_cases n s with ⟨-, h⟩ | ⟨-, h⟩ <;> exact h ▸ keepsFaults_refl s

/-! ## Every taken word, as far as faults go -/

/-- The three things a taken word can do about faults. -/
inductive FaultOutcome (d : Decoded) (s t : State) : Prop where
  | faults (c : FaultCode) (hraises : Raises s d c) (ht : t = raiseFault c (errorResponse s d))
  | resets (hd : d = .instr .srst) (ht : t = fullReset s)
  | keeps (hkeeps : KeepsFaults s t)

theorem exec_faultOutcome {i : Instr} {s t : State} (h : exec i s = .next t) : FaultOutcome (.instr i) s t := by
  have hcases := exec_cases i s t h
  cases i with
  | nop => exact .keeps (hcases ▸ keepsFaults_refl s)
  | sample s0 s1 => exact .keeps (hcases ▸ observePolarity_keepsFaults _ s)
  | newpass => exact .keeps (hcases ▸ keepsFaults_refl s)
  | srst => exact .resets rfl hcases
  | obs tc idx =>
    rcases hcases with ⟨hdec, rfl⟩ | ⟨hdec, rfl⟩
    · rcases observe_raises_or_keepsFaults tc idx s with ⟨hseen, hle, ht⟩ | hkeeps
      · exact .faults .order (.obsIndex hseen hdec hle) ht
      · exact .keeps hkeeps
    · exact .faults .badtc (.obsDigit hdec) rfl
  | obsl idx =>
    obtain rfl : t = observe s.tc idx s := hcases
    rcases observe_raises_or_keepsFaults s.tc idx s with ⟨hseen, hle, ht⟩ | hkeeps
    · exact .faults .order (.obsl hseen hle) ht
    · exact .keeps hkeeps
  | endInput => exact .keeps (hcases ▸ closeInput_keepsFaults s.lastIdx s)
  | endat n =>
    rcases hcases with ⟨hseen, hlt, rfl⟩ | ⟨-, rfl⟩
    · exact .faults .order (.endat hseen hlt) rfl
    · exact .keeps (closeInput_keepsFaults n s)
  | rdreg sel =>
    rcases hcases with ⟨-, v, rfl⟩ | ⟨hsel, rfl⟩
    · exact .keeps (keepsFaults_refl s)
    · exact .faults .illreg (.rdreg hsel) rfl
  | wrreg sel v =>
    rcases hcases with ⟨-, rfl⟩ | ⟨-, rfl⟩ | ⟨-, rfl⟩ | ⟨hsel, rfl⟩
    · exact .keeps (keepsFaults_refl s)
    · exact .keeps (keepsFaults_refl s)
    · exact .keeps (keepsFaults_refl s)
    · exact .faults .illreg (.wrreg (by simpa using hsel)) rfl

theorem runCommand_faultOutcome {w : CmdWord} {s t : State} (h : runCommand w s = .next t) :
    FaultOutcome (decode w) s t := by
  rcases decode_cases w with hd | ⟨i, hd, -⟩ <;> rw [hd]
  · cases (runCommand_reserved hd s).symm.trans h
    exact .faults .illcmd (.reserved _) rfl
  · exact exec_faultOutcome ((runCommand_of_decode hd s).symm.trans h)

/-- A fault event comes from the table: the word raised that fault. -/
theorem raises_of_fault_event {w : CmdWord} {s t : State} {c : FaultCode} (h : runCommand w s = .next t)
    (hevt : t.evtTrace = s.evtTrace ++ [.fault c]) :
    Raises s (decode w) c ∧ t = raiseFault c (errorResponse s (decode w)) := by
  cases runCommand_faultOutcome h with
  | faults c' hraises ht =>
    obtain rfl : c' = c := by simpa [ht] using hevt
    exact ⟨hraises, ht⟩
  | resets hd ht => simp [ht] at hevt
  | keeps hkeeps =>
    obtain ⟨hnoFault, -⟩ := hkeeps
    exact absurd hevt (hnoFault c)

theorem fault_event_iff_raises {w : CmdWord} {s t : State} {c : FaultCode} (h : runCommand w s = .next t) :
    t.evtTrace = s.evtTrace ++ [.fault c] ↔ Raises s (decode w) c := by
  refine ⟨fun hevt => (raises_of_fault_event h hevt).1, fun hraises => ?_⟩
  cases hraises.runCommand_eq.symm.trans h
  simp

/-! ## The statements of spec/60_exceptions.md R250, R252 and R262 -/

/-- Settles O47: a fault event is a row of the table, and the state it leaves is the raised fault. -/
theorem whichCommandsFault : Obligations.WhichCommandsFault := by
  refine ⟨⟨rfl, rfl, rfl, rfl⟩, fun w s t c h =>
    ⟨(fault_event_iff_raises h).trans (raises_decode_iff w s c), fun hevt => ?_⟩⟩
  obtain ⟨-, rfl⟩ := raises_of_fault_event h hevt
  refine ⟨?_, by simp, rfl, fault_event_data c, fun sel hd => ?_⟩
  · rw [statusWord_faultBit, faultBit_raiseFault_self]
  · rw [hd]
    rfl

/-- Settles O48: the operation field by field, and a faulting command is the operation after its error response. -/
theorem raisingAFault : Obligations.RaisingAFault := by
  refine ⟨fun c s => ⟨fun c' => faultBit_raiseFault c c' s, rfl, ?_, rfl⟩, fun w s t c h hevt => ?_⟩
  · simp [fault_event_data, Event.code]
  · obtain ⟨-, rfl⟩ := raises_of_fault_event h hevt
    rcases errorResponse_cases s (decode w) with heq | ⟨hread, heq⟩ <;> rw [heq]
    · exact .inl rfl
    · exact .inr ⟨hread, rfl⟩

/-- Settles O49: with the fault recorded only its event is left to emit. Of the three outcomes of a word, a fault only
adds to the bits and to an `FCODE` of 0, the reset is excluded by the opcode, and the third leaves both. -/
theorem onlyResetClearsStickyBits : Obligations.OnlyResetClearsStickyBits := by
  refine ⟨fun c s hcode => ⟨fun hbit => ?_, faultBit_raiseFault_self c s, if_neg hcode⟩, fun w s t hsrst h => ?_,
    fun s => ⟨fullReset s, rfl, by rintro ⟨⟩ <;> rfl, rfl, rfl⟩⟩
  · rw [raiseFault, recordFault_of_recorded hcode hbit, emitEvt]
  · cases runCommand_faultOutcome h with
    | faults c hraises ht =>
      subst ht
      exact ⟨fun c' hbit => by simp [faultBit_raiseFault, hbit], by simp, fun hcode => by simp [hcode]⟩
    | resets hd ht => exact absurd (decode_opcode w _ hd).symm hsrst
    | keeps hkeeps =>
      obtain ⟨-, hbits, hfcode, hmalformed⟩ := hkeeps
      exact ⟨fun c hbit => (hbits c).trans hbit, hmalformed, fun _ => hfcode⟩

end Sys2Proof.Proofs
end

section
/-! SUPPORT. Assembling and decoding as inverses: a command's word is what is left of any word that decodes to it once the
bits the command ignores are cleared (spec/30_encoding.md R80 to R88, R90). -/

open Sys2Proof Sys2Proof.Machine Sys2Proof.Laws

namespace Sys2Proof.Proofs

/-! ## Masked words -/

/-- A mask put together from three fields acts on the three fields of a word. -/
theorem and_mkCmd (w : CmdWord) (m : BitVec 8) (ma mb : BitVec 32) :
    w &&& mkCmd m ma mb = mkCmd (CmdWord.op w &&& m) (CmdWord.a w &&& ma) (CmdWord.b w &&& mb) := by
  conv_lhs => rw [← mkCmd_fields w]
  unfold mkCmd
  rw [BitVec.and_append, BitVec.and_append]

/-- The selector, put back into its operand, is the operand's low byte (R87). -/
theorem zero_append_low_byte (v : BitVec 32) : 0#24 ++ v.extractLsb' 0 8 = v &&& 0x000000FF#32 := by
  apply BitVec.eq_of_toNat_eq
  rw [append_toNat, extract_toNat, BitVec.toNat_and]
  simpa using (Nat.and_two_pow_sub_one_eq_mod v.toNat 8).symm

/-- The two amplitudes, put back together, are the operand they were read from (R84). -/
theorem opndS1_append_opndS0 (w : CmdWord) : opndS1 w ++ opndS0 w = CmdWord.b w :=
  BitVec.extractLsb'_append_extractLsb' (w := 16) (len := 16) (x := CmdWord.b w)

/-- A command is the masked word when its opcode is the word's and its operands are the masked operands. -/
theorem encode_eq_and_usedBits {w : CmdWord} {i : Instr} {ma mb : BitVec 32} (hop : i.opcode = CmdWord.op w)
    (hmask : i.usedBits = mkCmd 0xFF#8 ma mb) (ha : i.operandA = CmdWord.a w &&& ma)
    (hb : i.operandB = CmdWord.b w &&& mb) : encode i = w &&& i.usedBits := by
  have hall : CmdWord.op w &&& 0xFF#8 = CmdWord.op w := BitVec.and_allOnes
  rw [hmask, and_mkCmd, hall, encode, hop, ha, hb]

/-- The assembled word of what a word decodes to is the word with its ignored bits cleared (R81, R90). -/
theorem encode_of_decode {w : CmdWord} {i : Instr} (h : decode w = .instr i) : encode i = w &&& i.usedBits := by
  have hop := decode_opcode w i h
  have hzero : ∀ x : BitVec 32, 0#32 = x &&& 0#32 := fun _ => BitVec.and_zero.symm
  have hfull : ∀ x : BitVec 32, x = x &&& 0xFFFFFFFF#32 := fun _ => BitVec.and_allOnes.symm
  cases i with
  | nop => exact encode_eq_and_usedBits hop rfl (hzero _) (hzero _)
  | sample s0 s1 =>
    cases h.symm.trans (decode_op_sample hop.symm)
    exact encode_eq_and_usedBits hop rfl (hzero _) ((opndS1_append_opndS0 w).trans (hfull _))
  | newpass => exact encode_eq_and_usedBits hop rfl (hzero _) (hzero _)
  | srst => exact encode_eq_and_usedBits hop rfl (hzero _) (hzero _)
  | obs t idx =>
    cases h.symm.trans (decode_op_obs hop.symm)
    exact encode_eq_and_usedBits hop rfl (hfull _) (hfull _)
  | obsl idx =>
    cases h.symm.trans (decode_op_obsl hop.symm)
    exact encode_eq_and_usedBits hop rfl (hzero _) (hfull _)
  | endInput => exact encode_eq_and_usedBits hop rfl (hzero _) (hzero _)
  | endat n =>
    cases h.symm.trans (decode_op_endat hop.symm)
    exact encode_eq_and_usedBits hop rfl (hzero _) (hfull _)
  | rdreg sel =>
    cases h.symm.trans (decode_op_rdreg hop.symm)
    exact encode_eq_and_usedBits hop rfl (zero_append_low_byte _) (hzero _)
  | wrreg sel v =>
    cases h.symm.trans (decode_op_wrreg hop.symm)
    exact encode_eq_and_usedBits hop rfl (zero_append_low_byte _) (hfull _)

/-- Masking changes nothing exactly when nothing lies outside the mask. -/
theorem and_eq_self_iff_and_not_eq_zero {m : Nat} (x mask : BitVec m) : x &&& mask = x ↔ x &&& ~~~mask = 0#m := by
  simp only [BitVec.eq_of_getLsbD_eq_iff, BitVec.getLsbD_and, BitVec.getLsbD_not, BitVec.getLsbD_zero]
  refine forall_congr' fun i => forall_congr' fun hi => ?_
  cases x.getLsbD i <;> cases mask.getLsbD i <;> simp [hi]

/-- Which bits a command uses is told by its opcode. -/
def usedBitsOfOpcode (op : BitVec 8) : CmdWord :=
  if op ∈ [0x01#8, 0x11#8, 0x13#8] then 0xFF00000000FFFFFFFF#72
  else if op = 0x10#8 then 0xFFFFFFFFFFFFFFFFFF#72
  else if op = 0x20#8 then 0xFF000000FF00000000#72
  else if op = 0x21#8 then 0xFF000000FFFFFFFFFF#72
  else 0xFF0000000000000000#72

theorem usedBits_eq_usedBitsOfOpcode (i : Instr) : i.usedBits = usedBitsOfOpcode i.opcode := by
  cases i <;> rfl

/-- Every command uses the whole opcode. -/
theorem usedBits_opcode (i : Instr) : i.usedBits.extractLsb' 64 8 = BitVec.allOnes 8 := by
  cases i <;> (simp only [Instr.usedBits]; decide)

/-! ## The decoder on an assembled word -/

/-- An assembled word decodes to its command: the opcode selects it and the operands come back. -/
theorem decode_encode (i : Instr) : decode (encode i) = .instr i := by
  have hop : CmdWord.op (encode i) = i.opcode := op_mkCmd _ _ _
  have ha : CmdWord.a (encode i) = i.operandA := a_mkCmd _ _ _
  have hb : CmdWord.b (encode i) = i.operandB := b_mkCmd _ _ _
  cases i with
  | nop => exact decode_op_nop hop
  | sample s0 s1 =>
    obtain ⟨hs0, hs1⟩ := sampleOperands_append s1 s0
    rw [decode_op_sample hop, opndS0, opndS1, hb, Instr.operandB, hs0, hs1]
  | newpass => exact decode_op_newpass hop
  | srst => exact decode_op_srst hop
  | obs t idx => rw [decode_op_obs hop, ha, hb, Instr.operandA, Instr.operandB]
  | obsl idx => rw [decode_op_obsl hop, hb, Instr.operandB]
  | endInput => exact decode_op_endInput hop
  | endat n => rw [decode_op_endat hop, hb, Instr.operandB]
  | rdreg sel => rw [decode_op_rdreg hop, opndSel, ha, Instr.operandA, selector_append]
  | wrreg sel v => rw [decode_op_wrreg hop, opndSel, ha, hb, Instr.operandA, Instr.operandB, selector_append]

theorem encode_injective : Function.Injective encode := fun i j h =>
  Decoded.instr.inj ((decode_encode i).symm.trans ((congrArg decode h).trans (decode_encode j)))

/-- A word of a command's opcode decodes to some command of that opcode. -/
theorem decode_of_op_eq_opcode {w : CmdWord} {i : Instr} (h : CmdWord.op w = i.opcode) :
    ∃ j, decode w = .instr j ∧ j.opcode = i.opcode := by
  cases i with
  | nop => exact ⟨_, decode_op_nop h, rfl⟩
  | sample => exact ⟨_, decode_op_sample h, rfl⟩
  | newpass => exact ⟨_, decode_op_newpass h, rfl⟩
  | srst => exact ⟨_, decode_op_srst h, rfl⟩
  | obs => exact ⟨_, decode_op_obs h, rfl⟩
  | obsl => exact ⟨_, decode_op_obsl h, rfl⟩
  | endInput => exact ⟨_, decode_op_endInput h, rfl⟩
  | endat => exact ⟨_, decode_op_endat h, rfl⟩
  | rdreg => exact ⟨_, decode_op_rdreg h, rfl⟩
  | wrreg => exact ⟨_, decode_op_wrreg h, rfl⟩

theorem canonicalWord_iff {w : CmdWord} {i : Instr} (h : decode w = .instr i) :
    canonicalWord w = true ↔ w &&& ~~~i.usedBits = 0#72 := by
  rw [canonicalWord, h]
  exact decide_eq_true_iff

/-- Assembling what a word decodes to gives the word back exactly when the word is canonical. -/
theorem encode_eq_iff_canonicalWord {w : CmdWord} {i : Instr} (h : decode w = .instr i) :
    encode i = w ↔ canonicalWord w = true := by
  rw [encode_of_decode h, canonicalWord_iff h, and_eq_self_iff_and_not_eq_zero]

/-! ## The statements of spec/30_encoding.md R81, R82 and R90 -/

/-- Settles O3: the three fields of the assembled word go through the decoder's equation for the opcode. -/
theorem decodeEncodeRoundTrip : Obligations.DecodeEncodeRoundTrip := decode_encode

/-- Settles O4: the assembled word is the masked word, so it is the word itself when the mask clears nothing. -/
theorem encodeInvertsDecodeOnCanonicalWords : Obligations.EncodeInvertsDecodeOnCanonicalWords :=
  ⟨fun _ _ h => encode_eq_iff_canonicalWord h, fun i => (encode_eq_iff_canonicalWord (decode_encode i)).mp rfl⟩

/-- Settles O5: the second word has the same opcode, so it decodes to a command with the same used bits, whose assembled
word is the masked word of both; and a reserved opcode is none of the ten. -/
theorem ignoredBitsHaveNoEffect : Obligations.IgnoredBitsHaveNoEffect := by
  refine ⟨fun w w' i h hused => ?_, fun w w' op hop h => ?_⟩
  · have hop : CmdWord.op w = CmdWord.op w' := usedField_eq hused 64 8 (usedBits_opcode i)
    obtain ⟨j, hj, hopcode⟩ := decode_of_op_eq_opcode (hop.symm.trans (decode_opcode w i h).symm)
    have hmask : j.usedBits = i.usedBits := by
      rw [usedBits_eq_usedBitsOfOpcode, hopcode, ← usedBits_eq_usedBitsOfOpcode]
    have hencode : encode i = encode j := by
      rw [encode_of_decode h, encode_of_decode hj, hmask, hused]
    rw [encode_injective hencode, hj]
  · have hnone := op_notMem_of_decode_reserved h
    rw [decode_reserved w hnone] at h
    rw [decode_reserved w' (hop ▸ hnone), ← hop, h]

/-- Settles O1: the opcode of each written word is one of the ten or none of them, and its operands are its slices. -/
theorem specWordsDecode : Obligations.SpecWordsDecode := by
  refine ⟨?_, ?_, ?_, ?_, ?_, ?_, ?_, ?_, ?_, ?_, ?_, ?_, ?_⟩ <;> decide

end Sys2Proof.Proofs
end

section
/-! SUPPORT. The block's invariant, part by part: the fields each part speaks of, and what every command does to them
(spec/10_state.md R21 to R39; spec/42_frame_parser_latch.md R168; spec/43_segment_aggregator.md R200 to R205). -/

open Sys2Proof Sys2Proof.Machine Sys2Proof.Laws

namespace Sys2Proof.Proofs

/-! ## The demodulator and the assembler -/

/-- Once a polarity has been observed only the two ranges are left to keep. -/
theorem decoderInv_of_lastPol {s : State} {p : Polarity} (hpol : s.lastPol = some p) (hrun : 1 ≤ s.run.toNat)
    (hlen : s.len.toNat ≤ 81) : decoderInv s :=
  ⟨hrun, hlen, fun hnone => absurd (hnone.symm.trans hpol) nofun⟩

/-- The demodulator and the assembler at the start of a pass. -/
theorem decoderInv_start {s : State} (hrun : s.run = 1#4) (htoggle : s.toggle = true) (hsr : s.sr = 0#80)
    (hlen : s.len = 0#7) : decoderInv s :=
  ⟨by simp [hrun], by simp [hlen], fun _ => ⟨hrun, htoggle, hsr, hlen⟩⟩

theorem one_le_nextRun (run : BitVec 4) : 1 ≤ (nextRun run).toNat := by
  revert run
  decide

/-- A pushed bit leaves the length at most 81, whether it only counts or cuts. -/
theorem pushBit_len_le (b : Bool) (s : State) : (pushBit b s).len.toNat ≤ 81 := by
  rcases pushBit_cases b s with h | h | h <;> rw [h]
  · simp [nextLen_toNat]
  · simp
  · simp

/-- Everything the end of a run can do (40_demodulator.md R124 to R126). -/
theorem endRun_cases (s : State) : endRun s = s ∨ endRun s = setToggle true s ∨ endRun s = pushBit false s ∨
    endRun s = setToggle false (pushBit true s) := by
  unfold endRun
  split
  · split
    · exact .inr (.inr (.inr rfl))
    · exact .inr (.inl rfl)
  · exact .inr (.inr (.inl rfl))
  · exact .inl rfl

theorem endRun_len_le {s : State} (h : s.len.toNat ≤ 81) : (endRun s).len.toNat ≤ 81 := by
  rcases endRun_cases s with hend | hend | hend | hend <;> rw [hend]
  · exact h
  · exact h
  · exact pushBit_len_le false s
  · exact pushBit_len_le true s

theorem observePolarity_same {p : Polarity} {s : State} (h : s.lastPol = some p) :
    observePolarity p s = countRun s :=
  if_pos h

theorem observePolarity_transition {p : Polarity} {s : State} (h : s.lastPol ≠ some p) :
    observePolarity p s = startRun p (endRun s) :=
  if_neg h

theorem observePolarity_decoderInv (p : Polarity) {s : State} (h : decoderInv s) :
    decoderInv (observePolarity p s) := by
  obtain ⟨-, hlen, -⟩ := h
  by_cases hpol : s.lastPol = some p
  · rw [observePolarity_same hpol]
    exact decoderInv_of_lastPol hpol (one_le_nextRun s.run) hlen
  · rw [observePolarity_transition hpol]
    exact decoderInv_of_lastPol rfl (by simp) (endRun_len_le hlen)

/-- Only `SAMPLE`, `NEWPASS` and `SRST` write the demodulator and the assembler. -/
theorem exec_decoderInv {i : Instr} {s t : State} (hs : decoderInv s) (h : exec i s = .next t) : decoderInv t := by
  have hcases := exec_cases i s t h
  have hobserve : ∀ tc idx, decoderInv (observe tc idx s) := fun tc idx => by
    rcases observe_cases tc idx s with ⟨-, -, h⟩ | ⟨-, ⟨-, h⟩ | ⟨-, -, h⟩ | ⟨-, -, -, h⟩ | ⟨-, -, -, h⟩⟩ <;>
      exact h ▸ hs
  have hclose : ∀ n, decoderInv (closeInput n s) := fun n => by
    rcases closeInput_cases n s with ⟨-, h⟩ | ⟨-, h⟩ <;> exact h ▸ hs
  cases i with
  | nop => exact hcases ▸ hs
  | sample s0 s1 => exact hcases ▸ observePolarity_decoderInv _ hs
  | newpass => exact hcases ▸ decoderInv_start rfl rfl rfl rfl
  | srst => exact hcases ▸ decoderInv_start rfl rfl rfl rfl
  | obs tc idx =>
    rcases hcases with ⟨-, rfl⟩ | ⟨-, rfl⟩
    · exact hobserve tc idx
    · exact hs
  | obsl idx => exact hcases ▸ hobserve s.tc idx
  | endInput => exact hcases ▸ hclose s.lastIdx
  | endat n =>
    rcases hcases with ⟨-, -, rfl⟩ | ⟨-, rfl⟩
    · exact hs
    · exact hclose n
  | rdreg sel => rcases hcases with ⟨-, v, rfl⟩ | ⟨-, rfl⟩ <;> exact hs
  | wrreg sel v => rcases hcases with ⟨-, rfl⟩ | ⟨-, rfl⟩ | ⟨-, rfl⟩ | ⟨-, rfl⟩ <;> exact hs

/-! ## The latch -/

theorem LatchKept.latchInv {s t : State} (hkept : LatchKept s t) (h : latchInv s) : latchInv t := by
  obtain ⟨htc, hsynced, hubits, hflags⟩ := hkept
  unfold Machine.latchInv
  rw [htc, hsynced, hubits, hflags]
  exact h

/-- The largest values the widths of a frame's fields allow (42_frame_parser_latch.md R164). -/
theorem fieldValues_le (frame : Frame) :
    fieldFF (rawFields frame) ≤ 45 ∧ fieldSS (rawFields frame) ≤ 85 ∧ fieldMM (rawFields frame) ≤ 85 ∧
      fieldHH (rawFields frame) ≤ 45 := by
  obtain ⟨hfu, hft, hsu, hst, hmu, hmt, hhu, hht⟩ := rawFields_bounds frame
  unfold fieldFF fieldSS fieldMM fieldHH
  omega

/-- The digits of a frame's timecode are the two digits of each field value (42_frame_parser_latch.md R165). -/
theorem frameTimecode_digits (frame : Frame) :
    tcDigit (frameTimecode frame) 7 = fieldHH (rawFields frame) / 10 ∧
    tcDigit (frameTimecode frame) 6 = fieldHH (rawFields frame) % 10 ∧
    tcDigit (frameTimecode frame) 5 = fieldMM (rawFields frame) / 10 ∧
    tcDigit (frameTimecode frame) 4 = fieldMM (rawFields frame) % 10 ∧
    tcDigit (frameTimecode frame) 3 = fieldSS (rawFields frame) / 10 ∧
    tcDigit (frameTimecode frame) 2 = fieldSS (rawFields frame) % 10 ∧
    tcDigit (frameTimecode frame) 1 = fieldFF (rawFields frame) / 10 ∧
    tcDigit (frameTimecode frame) 0 = fieldFF (rawFields frame) % 10 := by
  obtain ⟨hff, hss, hmm, hhh⟩ := fieldValues_le frame
  exact packTimecode_digits _ _ _ _ (by omega) (by omega) (by omega) (by omega)

/-- A frame's timecode is decimal, since its field values stay below 100 (42_frame_parser_latch.md R168). -/
theorem frameTimecode_isDecimal (frame : Frame) : isDecimal (frameTimecode frame) = true := by
  obtain ⟨h7, h6, h5, h4, h3, h2, h1, h0⟩ := frameTimecode_digits frame
  obtain ⟨hff, hss, hmm, hhh⟩ := fieldValues_le frame
  rw [isDecimal_digits, h0, h1, h2, h3, h4, h5, h6, h7]
  omega

/-- A pushed bit keeps the latch or writes a frame's timecode into it. -/
theorem pushBit_latchInv (b : Bool) {s : State} (h : latchInv s) : latchInv (pushBit b s) := by
  rcases pushBit_cases b s with hpush | hpush | hpush <;> rw [hpush]
  · exact h
  · exact ⟨frameTimecode_isDecimal _, nofun⟩
  · exact h

theorem observePolarity_latchInv (p : Polarity) {s : State} (h : latchInv s) : latchInv (observePolarity p s) := by
  rcases observePolarity_cases p s with hobs | hobs | hobs | hobs | hobs <;> rw [hobs]
  · exact h
  · exact h
  · exact h
  · exact pushBit_latchInv false h
  · exact pushBit_latchInv true h

/-- An empty latch holds the default timecode, which is decimal. -/
theorem latchInv_of_cleared {s : State} (htc : s.tc = 0#32) (hubits : s.ubits = 0#32) (hflags : s.flags = 0#6) :
    latchInv s :=
  ⟨by rw [htc]; decide, fun _ => ⟨htc, hubits, hflags⟩⟩

/-- Only `SAMPLE` and `SRST` write the latch. -/
theorem exec_latchInv {i : Instr} {s t : State} (hs : latchInv s) (h : exec i s = .next t) : latchInv t := by
  have hcases := exec_cases i s t h
  cases i with
  | sample s0 s1 => exact hcases ▸ observePolarity_latchInv _ hs
  | srst => exact hcases ▸ latchInv_of_cleared rfl rfl rfl
  | _ => exact (exec_latchKept (by simp [Instr.opcode]) (by simp [Instr.opcode]) h).latchInv hs

/-! ## The aggregator and its records -/

/-- The record of a segment with a real timecode that does not end before it starts is one the block may emit. -/
theorem closingRecord_recordOk {s : State} {endIdx : Index} (hprev : s.prevTc ≠ 0#32)
    (hdec : isDecimal s.prevTc = true) (hle : s.segStart ≤ endIdx) : recordOk (closingRecord endIdx s) := by
  refine ⟨rfl, hprev, hdec, hle, ?_⟩
  change endIdx - s.segStart + 1#32 = BitVec.ofNat 32 (endIdx.toNat - s.segStart.toNat + 1)
  bv_omega

/-- The two parts of the invariant about the aggregator. -/
def AggregationInv (s : State) : Prop := aggregatorInv s ∧ recordsInv s

theorem recordsInv_append {s t : State} {r : SegRecord} (h : recordsInv s) (hr : recordOk r)
    (ht : t.segTrace = s.segTrace ++ [r]) : recordsInv t := by
  intro q hq
  rw [ht, List.mem_append, List.mem_singleton] at hq
  rcases hq with hq | rfl
  · exact h q hq
  · exact hr

/-- The aggregator in its reset state. -/
theorem aggregatorInv_clear {s : State} (hopen : s.segOpen = false) (hprev : s.prevTc = 0#32)
    (hstart : s.segStart = 0#32) (hlast : s.lastIdx = 0#32) : aggregatorInv s :=
  ⟨fun h => absurd (hopen.symm.trans h) nofun, fun _ => ⟨hprev, hstart⟩, fun _ => hlast⟩

/-- A segment that begins at the index just observed. -/
theorem aggregatorInv_begin {s : State} (hopen : s.segOpen = true) (hseen : s.seen = true)
    (hstart : s.segStart = s.lastIdx) (hprev : s.prevTc ≠ 0#32) (hdec : isDecimal s.prevTc = true) :
    aggregatorInv s :=
  ⟨fun _ => ⟨hseen, hstart ▸ BitVec.le_refl _, hprev, hdec⟩, fun h => absurd (hopen.symm.trans h) nofun,
    fun h => absurd (hseen.symm.trans h) nofun⟩

/-- An accepted observation that changes no segment only moves the last index up. -/
theorem noteIndex_aggregatorInv {s : State} {idx : Index} (h : aggregatorInv s)
    (horder : s.seen = true → s.lastIdx < idx) : aggregatorInv (noteIndex idx s) := by
  obtain ⟨hopened, hclosed, -⟩ := h
  refine ⟨fun hopen => ?_, hclosed, nofun⟩
  obtain ⟨hseen, hle, hprev, hdec⟩ := hopened hopen
  have hlt := horder hseen
  exact ⟨rfl, by simp only [noteIndex_segStart, noteIndex_lastIdx]; bv_omega, hprev, hdec⟩

/-- A decimal observation keeps the aggregator's invariant, and the record it may emit is a possible one. -/
theorem observe_aggregationInv {s : State} {tc : Timecode} (idx : Index) (hdec : isDecimal tc = true)
    (h : AggregationInv s) : AggregationInv (observe tc idx s) := by
  obtain ⟨hagg, hrecs⟩ := h
  rcases observe_cases tc idx s with ⟨-, -, hobs⟩ | ⟨horder, hobs⟩
  · exact hobs ▸ ⟨hagg, hrecs⟩
  rcases hobs with ⟨-, hobs⟩ | ⟨htc, -, hobs⟩ | ⟨-, -, -, hobs⟩ | ⟨hopen, htc, -, hobs⟩ <;> rw [hobs]
  · exact ⟨noteIndex_aggregatorInv hagg horder, hrecs⟩
  · exact ⟨aggregatorInv_begin rfl rfl rfl htc hdec, hrecs⟩
  · exact ⟨noteIndex_aggregatorInv hagg horder, hrecs⟩
  · obtain ⟨hopened, -, -⟩ := hagg
    obtain ⟨hseen, hle, hprev, hprevDec⟩ := hopened hopen
    have hbefore : s.segStart ≤ idx - 1#32 := by
      have hlt := horder hseen
      bv_omega
    exact ⟨aggregatorInv_begin rfl rfl rfl htc hdec,
      recordsInv_append hrecs (closingRecord_recordOk hprev hprevDec hbefore) rfl⟩

/-- Closing the input at or after the last index re-initialises the aggregator, and the record is a possible one. -/
theorem closeInput_aggregationInv {s : State} {n : Index} (h : AggregationInv s)
    (horder : s.seen = true → s.lastIdx ≤ n) : AggregationInv (closeInput n s) := by
  obtain ⟨⟨hopened, -, -⟩, hrecs⟩ := h
  rcases closeInput_cases n s with ⟨hopen, hclose⟩ | ⟨-, hclose⟩ <;> rw [hclose]
  · obtain ⟨hseen, hle, hprev, hdec⟩ := hopened hopen
    exact ⟨aggregatorInv_clear rfl rfl rfl rfl,
      recordsInv_append hrecs (closingRecord_recordOk hprev hdec (BitVec.le_trans hle (horder hseen))) rfl⟩
  · exact ⟨aggregatorInv_clear rfl rfl rfl rfl, hrecs⟩

/-- A sample pair writes nothing of the aggregator. -/
theorem observePolarity_aggregationInv (p : Polarity) {s : State} (h : AggregationInv s) :
    AggregationInv (observePolarity p s) := by
  have hpush : ∀ b, AggregationInv (pushBit b s) := fun b => by
    rcases pushBit_cases b s with hpush | hpush | hpush <;> exact hpush ▸ h
  rcases observePolarity_cases p s with hobs | hobs | hobs | hobs | hobs <;> rw [hobs]
  · exact h
  · exact h
  · exact h
  · exact hpush false
  · exact hpush true

/-- Every command keeps the aggregator's invariant; `OBSL` needs a decimal latch. -/
theorem exec_aggregationInv {i : Instr} {s t : State} (hs : AggregationInv s) (hlatch : latchInv s)
    (h : exec i s = .next t) : AggregationInv t := by
  have hcases := exec_cases i s t h
  cases i with
  | nop => exact hcases ▸ hs
  | sample s0 s1 => exact hcases ▸ observePolarity_aggregationInv _ hs
  | newpass => exact hcases ▸ hs
  | srst =>
    obtain ⟨-, hrecs⟩ := hs
    exact hcases ▸ ⟨aggregatorInv_clear rfl rfl rfl rfl, hrecs⟩
  | obs tc idx =>
    rcases hcases with ⟨hdec, rfl⟩ | ⟨-, rfl⟩
    · exact observe_aggregationInv idx hdec hs
    · exact hs
  | obsl idx =>
    obtain ⟨hdec, -⟩ := hlatch
    exact hcases ▸ observe_aggregationInv idx hdec hs
  | endInput => exact hcases ▸ closeInput_aggregationInv hs fun _ => BitVec.le_refl _
  | endat n =>
    rcases hcases with ⟨-, -, rfl⟩ | ⟨horder, rfl⟩
    · exact hs
    · exact closeInput_aggregationInv hs horder
  | rdreg sel => rcases hcases with ⟨-, v, rfl⟩ | ⟨-, rfl⟩ <;> exact hs
  | wrreg sel v => rcases hcases with ⟨-, rfl⟩ | ⟨-, rfl⟩ | ⟨-, rfl⟩ | ⟨-, rfl⟩ <;> exact hs

/-! ## The faults -/

/-- A recorded fault leaves a first-fault code whose bit is set: its own when it is the first. -/
theorem raiseFault_faultInv (c : FaultCode) {s : State} (h : faultInv s) : faultInv (raiseFault c s) := by
  rcases h with ⟨hcode, -⟩ | ⟨c', hcode, hbit⟩
  · exact .inr ⟨c, by simp [hcode], faultBit_raiseFault_self c s⟩
  · have hne : c'.code ≠ 0#4 := by cases c' <;> decide
    exact .inr ⟨c', by simp [hcode, hne], by simp [faultBit_raiseFault, hbit]⟩

/-- The code and the bits are all that the fault part speaks of. -/
theorem faultInv_congr {s t : State} (hcode : t.fcode = s.fcode) (hbits : ∀ c, faultBit c t = faultBit c s)
    (h : faultInv s) : faultInv t := by
  unfold faultInv
  simp only [hcode, hbits]
  exact h

theorem fullReset_faultInv (s : State) : faultInv (fullReset s) := .inl ⟨rfl, by rintro ⟨⟩ <;> rfl⟩

/-- Every taken word keeps the agreement of code and bits. -/
theorem FaultOutcome.faultInv {d : Decoded} {s t : State} (hout : FaultOutcome d s t) (h : faultInv s) :
    faultInv t := by
  cases hout with
  | faults c _ ht =>
    subst ht
    exact raiseFault_faultInv c
      (faultInv_congr (errorResponse_fcode s d) (fun c' => faultBit_errorResponse c' s d) h)
  | resets _ ht =>
    exact ht ▸ fullReset_faultInv s
  | keeps hkeeps =>
    obtain ⟨-, hbits, hcode, -⟩ := hkeeps
    exact faultInv_congr hcode hbits h

/-! ## The whole invariant -/

theorem exec_keeps_inv {i : Instr} {s t : State} (hs : State.Inv s) (h : exec i s = .next t) : State.Inv t := by
  obtain ⟨hdecoder, hlatch, hagg, hfault, hrecs⟩ := hs
  obtain ⟨hagg', hrecs'⟩ := exec_aggregationInv ⟨hagg, hrecs⟩ hlatch h
  exact ⟨exec_decoderInv hdecoder h, exec_latchInv hlatch h, hagg', (exec_faultOutcome h).faultInv hfault, hrecs'⟩

theorem runCommand_keeps_inv {w : CmdWord} {s t : State} (hs : State.Inv s) (h : runCommand w s = .next t) :
    State.Inv t := by
  rcases runCommand_cases w s with ⟨i, -, -, hrun⟩ | hrun
  · exact exec_keeps_inv hs (hrun.symm.trans h)
  · cases hrun.symm.trans h
    obtain ⟨hdecoder, hlatch, hagg, hfault, hrecs⟩ := hs
    exact ⟨hdecoder, hlatch, hagg, raiseFault_faultInv .illcmd hfault, hrecs⟩

/-- The reset state, whatever the traces hold of records the block may emit, meets the invariant. -/
theorem fullReset_inv {s : State} (h : recordsInv s) : State.Inv (fullReset s) :=
  ⟨decoderInv_start rfl rfl rfl rfl, latchInv_of_cleared rfl rfl rfl, aggregatorInv_clear rfl rfl rfl rfl,
    fullReset_faultInv s, h⟩

/-- The pins still to be read take no part in the invariant. -/
theorem withInputs_inv {s : State} (ps : List Pins) (h : State.Inv s) : State.Inv (withInputs ps s) := by
  obtain ⟨hdecoder, hlatch, hagg, hfault, hrecs⟩ := h
  exact ⟨hdecoder, hlatch, hagg, faultInv_congr rfl (by rintro ⟨⟩ <;> rfl) hfault, hrecs⟩

/-! ## The statements of the invariant -/

/-- Settles O52: a step takes the pins and then resets, runs a word, or does nothing. -/
theorem stepKeepsTheInvariant : Obligations.StepKeepsTheInvariant := by
  intro s t hs hstep
  rcases step_cases s with ⟨-, h⟩ | ⟨p, ps, -, hpins⟩
  · cases h.symm.trans hstep
    exact hs
  have hs' := withInputs_inv ps hs
  rcases hpins with ⟨-, h⟩ | ⟨-, -, h⟩ | ⟨-, -, h⟩
  · cases h.symm.trans hstep
    obtain ⟨-, -, -, -, hrecs⟩ := hs'
    exact fullReset_inv hrecs
  · cases h.symm.trans hstep
    exact hs'
  · exact runCommand_keeps_inv hs' (h.symm.trans hstep)

/-- Settles O51: the reset state is the full reset of itself, and no record has been emitted. -/
theorem resetMeetsTheInvariant : Obligations.ResetMeetsTheInvariant :=
  fullReset_inv (s := State.reset) (List.forall_mem_nil _)

/-- Settles O53: the invariant keeps the latch decimal, so the check of `OBS` passes. -/
theorem obslIsObsOfTheLatch : Obligations.ObslIsObsOfTheLatch := by
  rintro s idx ⟨-, ⟨hdec, -⟩, -⟩
  obtain ⟨hobs, hobsl⟩ := exec_obs_obsl_of_observe (t := s.tc) (idx := idx) (s := s) rfl
  exact (hobsl rfl).trans (hobs hdec).symm

end Sys2Proof.Proofs
end

section
/-! SUPPORT. One source of the aggregator: the records emitted so far, with the one the open segment would close with now,
cover the observations made so far (spec/43_segment_aggregator.md R197 to R203); and command lists run in parts. -/

open Sys2Proof Sys2Proof.Machine Sys2Proof.Laws

namespace Sys2Proof.Proofs

/-! ## Command lists -/

theorem execList_cons_of_next {i : Instr} {s t : State} (h : exec i s = .next t) (is : List Instr) :
    execList (i :: is) s = execList is t := by
  rw [execList, h]

/-- A list run in two parts. -/
theorem execList_append_of_next {is : List Instr} {s t : State} (h : execList is s = .next t) (js : List Instr) :
    execList (is ++ js) s = execList js t := by
  induction is generalizing s with
  | nil =>
    cases h
    rfl
  | cons i is ih =>
    obtain ⟨u, hu⟩ := exec_next i s
    rw [execList_cons_of_next hu] at h
    rw [List.cons_append, execList_cons_of_next hu, ih h]

/-! ## Records against observations -/

/-- Records that follow one another go on with one more exactly when it starts after the last of them. -/
theorem contiguous_concat_iff (recs : List SegRecord) (r : SegRecord) :
    contiguous (recs ++ [r]) ↔ contiguous recs ∧ ∀ q, recs.getLast? = some q → r.startIdx = q.endIdx + 1#32 := by
  induction recs using contiguous.induct with
  | case1 => simp [contiguous]
  | case2 q => simp [contiguous]
  | case3 p q rest ih => simp only [List.cons_append, contiguous, List.getLast?_cons_cons, and_assoc] at ih ⊢; rw [ih]

/-- The records are contiguous and possible, hold every observation that is not the sentinel in a record of its own
timecode, and begin at the first of these. -/
structure Covers (obs : List (Timecode × Index)) (recs : List SegRecord) : Prop where
  gapless : contiguous recs
  possible : ∀ r ∈ recs, recordOk r
  covered : ∀ o ∈ obs, o.1 ≠ 0#32 → ∃ r ∈ recs, r.startTc = o.1 ∧ r.startIdx ≤ o.2 ∧ o.2 ≤ r.endIdx
  beginning : ∀ r, recs.head? = some r → (obs.find? fun o => decide (o.1 ≠ 0#32)) = some (r.startTc, r.startIdx)

namespace Covers

variable {obs : List (Timecode × Index)} {recs : List SegRecord}

theorem nil : Covers [] [] := ⟨trivial, nofun, nofun, nofun⟩

/-- The last record may end later. -/
theorem extendLast {r r' : SegRecord} (h : Covers obs (recs ++ [r])) (htc : r'.startTc = r.startTc)
    (hstart : r'.startIdx = r.startIdx) (hend : r.endIdx ≤ r'.endIdx) (hok : recordOk r') :
    Covers obs (recs ++ [r']) where
  gapless := by
    rw [contiguous_concat_iff, hstart, ← contiguous_concat_iff]
    exact h.gapless
  possible q hq := by
    rw [List.mem_append, List.mem_singleton] at hq
    rcases hq with hq | rfl
    · exact h.possible q (List.mem_append_left _ hq)
    · exact hok
  covered o ho hne := by
    obtain ⟨q, hq, hqtc, hqstart, hqend⟩ := h.covered o ho hne
    rw [List.mem_append, List.mem_singleton] at hq
    rcases hq with hq | rfl
    · exact ⟨q, List.mem_append_left _ hq, hqtc, hqstart, hqend⟩
    · exact ⟨r', List.mem_append_right _ (List.mem_singleton_self _), htc.trans hqtc, hstart ▸ hqstart,
        BitVec.le_trans hqend hend⟩
  beginning q hq := by
    cases recs with
    | nil =>
      obtain rfl : r' = q := by simpa using hq
      rw [htc, hstart]
      exact h.beginning r rfl
    | cons p rest => exact h.beginning q hq

/-- One more observation that is the sentinel, or lies in a record already. -/
theorem addObservation (h : Covers obs recs) {o : Timecode × Index}
    (ho : o.1 ≠ 0#32 → ∃ r ∈ recs, r.startTc = o.1 ∧ r.startIdx ≤ o.2 ∧ o.2 ≤ r.endIdx) :
    Covers (obs ++ [o]) recs where
  gapless := h.gapless
  possible := h.possible
  covered q hq hne := by
    rw [List.mem_append, List.mem_singleton] at hq
    rcases hq with hq | rfl
    · exact h.covered q hq hne
    · exact ho hne
  beginning r hr := by rw [List.find?_append, h.beginning r hr, Option.some_or]

/-- Without a record all observations so far are the sentinel. -/
theorem find?_eq_none (h : Covers obs []) : (obs.find? fun o => decide (o.1 ≠ 0#32)) = none := by
  refine List.find?_eq_none.mpr fun o ho hne => ?_
  obtain ⟨r, hr, -⟩ := h.covered o ho (of_decide_eq_true hne)
  exact absurd hr List.not_mem_nil

/-- One more observation that begins a record, just after the last one. -/
theorem beginRecord {o : Timecode × Index} {r : SegRecord} (h : Covers obs recs) (htc : r.startTc = o.1)
    (hstart : r.startIdx = o.2) (hend : r.endIdx = o.2) (hok : recordOk r)
    (hnext : ∀ q, recs.getLast? = some q → o.2 = q.endIdx + 1#32) : Covers (obs ++ [o]) (recs ++ [r]) where
  gapless := (contiguous_concat_iff recs r).mpr ⟨h.gapless, hstart ▸ hnext⟩
  possible q hq := by
    rw [List.mem_append, List.mem_singleton] at hq
    rcases hq with hq | rfl
    · exact h.possible q hq
    · exact hok
  covered q hq hne := by
    rw [List.mem_append, List.mem_singleton] at hq
    rcases hq with hq | rfl
    · obtain ⟨p, hp, hrange⟩ := h.covered q hq hne
      exact ⟨p, List.mem_append_left _ hp, hrange⟩
    · exact ⟨r, List.mem_append_right _ (List.mem_singleton_self _), htc, hstart ▸ BitVec.le_refl _,
        hend ▸ BitVec.le_refl _⟩
  beginning q hq := by
    cases recs with
    | nil =>
      obtain rfl : r = q := by simpa using hq
      obtain ⟨-, hne, -⟩ := hok
      rw [List.find?_append, h.find?_eq_none, Option.none_or, List.find?_singleton,
        if_pos (decide_eq_true (htc ▸ hne)), htc, hstart]
    | cons p rest => rw [List.find?_append, h.beginning q hq, Option.some_or]

end Covers

/-! ## The aggregator on its way through a source -/

/-- The record the open segment would close with at the last observed index. -/
def pendingRecord (s : State) : List SegRecord := if s.segOpen then [closingRecord s.lastIdx s] else []

theorem pendingRecord_open {s : State} (h : s.segOpen = true) : pendingRecord s = [closingRecord s.lastIdx s] :=
  if_pos h

theorem pendingRecord_closed {s : State} (h : s.segOpen = false) : pendingRecord s = [] := by
  rw [pendingRecord, h]
  rfl

/-- From `s` the observations `obs` led to `t` and emitted `recs`. -/
structure Aggregates (obs : List (Timecode × Index)) (s t : State) (recs : List SegRecord) : Prop where
  frame : t = { s with segOpen := t.segOpen, seen := t.seen, prevTc := t.prevTc, segStart := t.segStart,
                       lastIdx := t.lastIdx, segTrace := s.segTrace ++ recs }
  covers : Covers obs (recs ++ pendingRecord t)
  closed : t.segOpen = false → recs = []
  openSeen : t.segOpen = true → t.seen = true
  last : t.seen = true → obs.getLast?.map Prod.snd = some t.lastIdx

namespace Aggregates

variable {obs : List (Timecode × Index)} {s t : State} {recs : List SegRecord}

theorem start (hseen : s.seen = false) (hopen : s.segOpen = false) : Aggregates [] s s [] where
  frame := by rw [List.append_nil]
  covers := (pendingRecord_closed hopen).symm ▸ Covers.nil
  closed _ := rfl
  openSeen h := absurd (hopen.symm.trans h) nofun
  last h := absurd (hseen.symm.trans h) nofun

/-- Nothing is open: nothing was emitted and nothing is pending. -/
theorem covers_nil (h : Aggregates obs s t recs) (hopen : t.segOpen = false) : Covers obs [] := by
  have hcovers := h.covers
  rwa [h.closed hopen, pendingRecord_closed hopen] at hcovers

/-- The open segment has a real timecode and does not start after the last index. -/
theorem openSegment (h : Aggregates obs s t recs) (hopen : t.segOpen = true) :
    t.prevTc ≠ 0#32 ∧ isDecimal t.prevTc = true ∧ t.segStart ≤ t.lastIdx := by
  have hmem : closingRecord t.lastIdx t ∈ recs ++ pendingRecord t := by simp [pendingRecord_open hopen]
  obtain ⟨-, hprev, hdec, hle, -⟩ := h.covers.possible _ hmem
  exact ⟨hprev, hdec, hle⟩

/-- The open segment may be closed at a later index instead. -/
theorem covers_closingRecord (h : Aggregates obs s t recs) (hopen : t.segOpen = true) {e : Index}
    (he : t.lastIdx ≤ e) : Covers obs (recs ++ [closingRecord e t]) := by
  have hcovers := h.covers
  rw [pendingRecord_open hopen] at hcovers
  obtain ⟨hprev, hdec, hle⟩ := h.openSegment hopen
  exact hcovers.extendLast rfl rfl he (closingRecord_recordOk hprev hdec (BitVec.le_trans hle he))

variable {tc : Timecode} {idx : Index}

/-- An observation that only advances the index: the sentinel, or the open segment's own timecode. -/
theorem afterNoteIndex (h : Aggregates obs s t recs) (horder : t.seen = true → t.lastIdx < idx)
    (htc : tc ≠ 0#32 → t.segOpen = true ∧ tc = t.prevTc) :
    Aggregates (obs ++ [(tc, idx)]) s (noteIndex idx t) recs where
  frame := by rw [h.frame]; rfl
  covers := by
    cases hopen : t.segOpen with
    | false =>
      rw [pendingRecord_closed (s := noteIndex idx t) hopen, h.closed hopen]
      refine (h.covers_nil hopen).addObservation fun hne => ?_
      obtain ⟨hopen', -⟩ := htc hne
      exact absurd (hopen.symm.trans hopen') nofun
    | true =>
      have hlt := BitVec.le_of_lt (horder (h.openSeen hopen))
      rw [pendingRecord_open (s := noteIndex idx t) hopen]
      refine (h.covers_closingRecord hopen hlt).addObservation fun hne => ?_
      obtain ⟨-, htc⟩ := htc hne
      obtain ⟨-, -, hle⟩ := h.openSegment hopen
      exact ⟨_, List.mem_append_right _ (List.mem_singleton_self _), htc.symm, BitVec.le_trans hle hlt,
        BitVec.le_refl _⟩
  closed := h.closed
  openSeen _ := rfl
  last _ := by simp

/-- An observation that begins a segment, after the records `recs'` it leaves behind. -/
theorem afterBeginSegment {recs' : List SegRecord} {u : State} (hframe : u = { s with
      segOpen := u.segOpen, seen := u.seen, prevTc := u.prevTc, segStart := u.segStart, lastIdx := u.lastIdx
      segTrace := s.segTrace ++ recs' }) (hcovers : Covers obs recs') (htc : tc ≠ 0#32)
    (hdec : isDecimal tc = true) (hnext : ∀ q, recs'.getLast? = some q → idx = q.endIdx + 1#32) :
    Aggregates (obs ++ [(tc, idx)]) s (beginSegment tc idx (noteIndex idx u)) recs' where
  frame := by rw [hframe]; rfl
  covers := hcovers.beginRecord rfl rfl rfl (closingRecord_recordOk htc hdec (BitVec.le_refl _)) hnext
  closed := nofun
  openSeen _ := rfl
  last _ := by simp

/-- Every decimal observation in order keeps the records covering. -/
theorem afterObserve (h : Aggregates obs s t recs) (hdec : isDecimal tc = true)
    (horder : t.seen = true → t.lastIdx < idx) :
    ∃ recs', Aggregates (obs ++ [(tc, idx)]) s (observe tc idx t) recs' := by
  rcases observe_cases tc idx t with ⟨hseen, hle, -⟩ | ⟨-, hobs⟩
  · exact absurd (horder hseen) (BitVec.not_lt.mpr hle)
  rcases hobs with ⟨hzero, hobs⟩ | ⟨htc, hopen, hobs⟩ | ⟨hopen, -, hprev, hobs⟩ | ⟨hopen, htc, -, hobs⟩ <;> rw [hobs]
  · exact ⟨recs, h.afterNoteIndex horder fun hne => absurd hzero hne⟩
  · exact ⟨recs, afterBeginSegment h.frame (h.closed hopen ▸ h.covers_nil hopen) htc hdec (by simp [h.closed hopen])⟩
  · exact ⟨recs, h.afterNoteIndex horder fun _ => ⟨hopen, hprev⟩⟩
  · have hlt := horder (h.openSeen hopen)
    refine ⟨recs ++ [closingRecord (idx - 1#32) t],
      afterBeginSegment (u := emitSeg (closingRecord (idx - 1#32) t) t) ?_
        (h.covers_closingRecord hopen (by bv_omega)) htc hdec fun q hq => ?_⟩
    · rw [h.frame]
      simp [emitSeg]
    · obtain rfl : closingRecord (idx - 1#32) t = q := by simpa using hq
      change idx = idx - 1#32 + 1#32
      bv_omega

/-- The last index is that of some observation. -/
theorem lastIdx_mem (h : Aggregates obs s t recs) (hseen : t.seen = true) : ∃ o ∈ obs, o.2 = t.lastIdx := by
  obtain ⟨o, ho, hidx⟩ := Option.map_eq_some_iff.mp (h.last hseen)
  exact ⟨o, List.mem_of_getLast? ho, hidx⟩

end Aggregates

/-- A whole list of decimal observations in order runs, and its records cover it. -/
theorem execList_obs_aggregates (obs : List (Timecode × Index)) {s : State} (hseen : s.seen = false)
    (hopen : s.segOpen = false) (hdec : ∀ o ∈ obs, isDecimal o.1 = true)
    (horder : obs.Pairwise fun o o' => o.2 < o'.2) :
    ∃ t recs, execList (obs.map fun o => .obs o.1 o.2) s = .next t ∧ Aggregates obs s t recs := by
  induction obs using List.reverseRecOn with
  | nil => exact ⟨s, [], rfl, .start hseen hopen⟩
  | append_singleton obs o ih =>
    obtain ⟨hpre, -, hlast⟩ := List.pairwise_append.mp horder
    obtain ⟨t, recs, hrun, hagg⟩ := ih (fun o ho => hdec o (List.mem_append_left _ ho)) hpre
    have ho : o ∈ obs ++ [o] := List.mem_append_right _ (List.mem_singleton_self o)
    obtain ⟨recs', hagg'⟩ := hagg.afterObserve (idx := o.2) (hdec o ho) fun hseen => by
      obtain ⟨o', ho', hidx⟩ := hagg.lastIdx_mem hseen
      exact hidx ▸ hlast o' ho' o (List.mem_singleton_self o)
    obtain ⟨hobs, -⟩ := exec_obs_obsl_of_observe (t := o.1) (idx := o.2) (s := t) rfl
    refine ⟨_, recs', ?_, hagg'⟩
    rw [List.map_append, execList_append_of_next hrun, List.map_singleton, execList_cons_of_next (hobs (hdec o ho)),
      execList]

/-- `END` emits the pending record and re-initialises the aggregator. -/
theorem closeInput_lastIdx (s : State) : closeInput s.lastIdx s = { s with
    segOpen := false, seen := false, prevTc := 0#32, segStart := 0#32, lastIdx := 0#32
    segTrace := s.segTrace ++ pendingRecord s } := by
  rcases closeInput_cases s.lastIdx s with ⟨hopen, h⟩ | ⟨hclosed, h⟩ <;> rw [h]
  · rw [pendingRecord_open hopen]
    rfl
  · rw [pendingRecord_closed hclosed, List.append_nil]
    rfl

/-- The last record of a source ends at its last observed index. -/
theorem Aggregates.last_endIdx {obs : List (Timecode × Index)} {s t : State} {recs : List SegRecord}
    (h : Aggregates obs s t recs) (r : SegRecord) (hr : (recs ++ pendingRecord t).getLast? = some r) :
    obs.getLast?.map Prod.snd = some r.endIdx := by
  cases hopen : t.segOpen with
  | false => simp [pendingRecord_closed hopen, h.closed hopen] at hr
  | true =>
    obtain rfl : closingRecord t.lastIdx t = r := by simpa [pendingRecord_open hopen] using hr
    exact h.last (h.openSeen hopen)

/-! ## The statements of spec/43_segment_aggregator.md R191 and R197 to R203 -/

/-- Settles O46: the observations keep the records emitted and pending covering, and `END` emits the pending one. -/
theorem sourceRecordsCoverItsObservations : Obligations.SourceRecordsCoverItsObservations := by
  intro obs s hseen hopen hdec horder
  obtain ⟨t, recs, hrun, hagg⟩ := execList_obs_aggregates obs hseen hopen hdec horder
  refine ⟨closeInput t.lastIdx t, recs ++ pendingRecord t, ?_, ?_, hagg.covers.gapless, hagg.covers.possible,
    hagg.covers.covered, hagg.covers.beginning, hagg.last_endIdx⟩
  · rw [execList_append_of_next hrun, execList_cons_of_next (exec_endInput t), execList]
  · rw [closeInput_lastIdx, hagg.frame, ← List.append_assoc]

/-- Settles O40: the open segment's own timecode changes no segment, the sentinel's included. -/
theorem sameTimecodeExtendsSegment : Obligations.SameTimecodeExtendsSegment := by
  rintro s t idx horder hopen rfl
  have hsame : extendSegment s.prevTc idx (noteIndex idx s) = noteIndex idx s := by
    simp [extendSegment, hopen]
  exact exec_obs_obsl_of_observe ((observe_inOrder horder).trans hsame)

end Sys2Proof.Proofs
end

section
/-! SUPPORT. The block's accumulator against the source's unbounded bit sequence: the same bits arrive, and the same frames
are cut (spec/10_state.md R51; spec/41_frame_sync.md R140 to R149). -/

open Sys2Proof Sys2Proof.Machine Sys2Proof.Laws

namespace Sys2Proof.Proofs

/-! ## Vectors as bits in arrival order -/

/-- The bits of a vector, the first-arrived and least significant one first (00_scope.md R11). -/
def arrivalBits {m : Nat} (x : BitVec m) : List Bool := (List.range m).map fun i => x.getLsbD i

theorem frameBits_eq_arrivalBits (frame : Frame) : frameBits frame = arrivalBits frame := rfl

theorem arrivalBits_sync : arrivalBits Config.sync = Config.syncArrival := by decide

@[simp] theorem arrivalBits_length {m : Nat} (x : BitVec m) : (arrivalBits x).length = m := by simp [arrivalBits]

@[simp] theorem arrivalBits_getElem {m : Nat} (x : BitVec m) (i : Nat) (h : i < (arrivalBits x).length) :
    (arrivalBits x)[i] = x.getLsbD i := by simp [arrivalBits]

theorem arrivalBits_injective {m : Nat} {x y : BitVec m} (h : arrivalBits x = arrivalBits y) : x = y := by
  refine BitVec.eq_of_getLsbD_eq fun i hi => ?_
  have hget := congrArg (fun bits => bits[i]?) h
  simpa [arrivalBits, hi] using hget

/-- The bits of a slice stand in the bits of the whole. -/
theorem arrivalBits_extract {m : Nat} (x : BitVec m) {lo n : Nat} (h : lo + n = m) :
    arrivalBits (x.extractLsb' lo n) = (arrivalBits x).drop lo := by
  apply List.ext_getElem
  · simp
    omega
  · intro i hi _
    have hin : i < n := by simpa using hi
    simp [hin]

/-- A number written bit by bit, read bit by bit. -/
theorem bitsValue_testBit (bits : List Bool) (i : Nat) : (bitsValue bits).testBit i = bits.getD i false := by
  induction bits generalizing i with
  | nil => simp [bitsValue]
  | cons b bits ih =>
    have hbit : bitsValue (b :: bits) = Nat.bit b (bitsValue bits) := by
      rw [bitsValue, Nat.bit_val, Nat.add_comm]
      cases b <;> rfl
    rw [hbit]
    cases i with
    | zero => simp
    | succ i => rw [Nat.testBit_bit_succ, ih, List.getD_cons_succ]

theorem frameOfBits_frameBits (frame : Frame) : frameOfBits (frameBits frame) = frame := by
  refine BitVec.eq_of_getLsbD_eq fun i hi => ?_
  rw [frameOfBits, BitVec.getLsbD_ofNat, bitsValue_testBit, frameBits_eq_arrivalBits]
  simp [List.getD, arrivalBits, hi]

/-! ## The sequence's cut, in arrival order -/

/-- The cut of a sequence written oldest bit first (R140). -/
theorem tceCut_reverse (bits : List Bool) : tceCut bits.reverse =
    if bits.drop (bits.length - 16) = Config.syncArrival ∧ 80 < bits.length then
      some (frameOfBits (bits.drop (bits.length - 80))) else none := by
  have htrailing : ∀ n, (bits.reverse.take n).reverse = bits.drop (bits.length - n) := fun n => by
    rw [List.take_reverse, List.reverse_reverse]
  rw [tceCut, List.length_reverse, htrailing, htrailing]
  refine if_congr ⟨fun ⟨_, hcut⟩ => hcut, fun hcut => ⟨?_, hcut⟩⟩ rfl rfl
  obtain ⟨-, hlong⟩ := hcut
  omega

/-- Nothing is cut from 80 bits or fewer (R143). -/
theorem tceCut_reverse_short {bits : List Bool} (h : bits.length ≤ 80) : tceCut bits.reverse = none := by
  rw [tceCut_reverse, if_neg]
  omega

theorem tceCut_reverse_noSync {bits : List Bool} (h : bits.drop (bits.length - 16) ≠ Config.syncArrival) :
    tceCut bits.reverse = none := by
  rw [tceCut_reverse, if_neg fun ⟨hsync, _⟩ => h hsync]

/-- A frame that ends in the sync word is cut whole when any bit stands in front of it. -/
theorem tceCut_reverse_frame {before : List Bool} (hbefore : before ≠ []) {frame : Frame}
    (hsync : frame.extractLsb' 64 16 = 0xBFFC#16) : tceCut (before ++ frameBits frame).reverse = some frame := by
  have hpos := List.length_pos_iff.mpr hbefore
  have hlength : (frameBits frame).length = 80 := arrivalBits_length frame
  have hframe : (before ++ frameBits frame).drop (before.length + 80 - 80) = frameBits frame := by simp
  have hword : (before ++ frameBits frame).drop (before.length + 80 - 16) = Config.syncArrival := by
    rw [show before.length + 80 - 16 = before.length + 64 by omega, ← List.drop_drop, List.drop_left,
      frameBits_eq_arrivalBits, ← arrivalBits_extract frame (n := 16) rfl, hsync]
    exact arrivalBits_sync
  rw [tceCut_reverse, List.length_append, hlength, if_pos ⟨hword, by omega⟩, hframe, frameOfBits_frameBits]

/-! ## The accumulator stands for the sequence -/

section
variable {acc : List Bool} {s : State}

theorem accumulatorIs_nil (h : s.len = 0#7) : accumulatorIs [] s :=
  ⟨by simp [h], fun j hj => absurd hj (Nat.not_lt_zero j)⟩

/-- The append of a bit on both sides. -/
theorem accumulatorIs_appendBit (h : accumulatorIs acc s) (b : Bool) : accumulatorIs (b :: acc) (appendBit b s) := by
  obtain ⟨hlen, hbits⟩ := h
  refine ⟨?_, fun j hj h80 => ?_⟩
  · simp only [appendBit_len, nextLen_toNat, hlen, List.length_cons]
    omega
  · rw [appendBit_sr, shiftIn_bit _ _ _ (by omega)]
    cases j with
    | zero => rfl
    | succ j =>
      rw [if_neg (by omega), show 79 - (j + 1) + 1 = 79 - j by omega]
      exact hbits j (Nat.lt_of_succ_lt_succ hj) (by omega)

/-- The trailing bits of a long enough sequence are the newest bits of the register. -/
theorem take_reverse_eq_arrivalBits (h : accumulatorIs acc s) {n : Nat} (hn : n ≤ acc.length) (h80 : n ≤ 80) :
    (acc.take n).reverse = arrivalBits (s.sr.extractLsb' (80 - n) n) := by
  obtain ⟨-, hbits⟩ := h
  apply List.ext_getElem
  · simp [hn]
  · intro i hi _
    have hin : i < n := by simpa [hn] using hi
    have hbit := hbits (n - 1 - i) (by omega) (by omega)
    rw [show 79 - (n - 1 - i) = 80 - n + i by omega] at hbit
    simp [hin, hbit, Nat.min_eq_left hn]

/-- The frame that the push of a bit cuts, if it cuts one (R143, R144). -/
def cutFrame (b : Bool) (s : State) : Option Frame :=
  if cutNow (shiftIn b s.sr) (nextLen s.len) then some (shiftIn b s.sr) else none

/-- The sequence is cut where the accumulator is, and its frame is the register. -/
theorem tceCut_cons (h : accumulatorIs acc s) (b : Bool) : tceCut (b :: acc) = cutFrame b s := by
  have happend := accumulatorIs_appendBit h b
  obtain ⟨hlen, -⟩ := h
  by_cases hlong : 80 ≤ acc.length
  · have hframe : ((b :: acc).take 80).reverse = frameBits (shiftIn b s.sr) := by
      rw [take_reverse_eq_arrivalBits happend (by simp; omega) (by omega), appendBit_sr,
        arrivalBits_extract _ (by omega), frameBits_eq_arrivalBits]
      rfl
    have hword : ((b :: acc).take 16).reverse = arrivalBits ((shiftIn b s.sr).extractLsb' 64 16) :=
      take_reverse_eq_arrivalBits happend (by simp; omega) (by omega)
    rw [tceCut, cutFrame, hframe, hword, frameOfBits_frameBits, ← arrivalBits_sync]
    refine if_congr ?_ rfl rfl
    rw [cutNow_nextLen, List.length_cons]
    constructor
    · rintro ⟨-, hsync, -⟩
      exact ⟨by omega, arrivalBits_injective hsync⟩
    · rintro ⟨-, hsync⟩
      exact ⟨by omega, congrArg arrivalBits hsync, by omega⟩
  · rw [tceCut, cutFrame, if_neg (by simp only [List.length_cons]; omega), if_neg]
    rw [cutNow_nextLen]
    omega

end

/-- What is left outside the decoder once the frame a push cut, if any, is parsed. -/
def parseCut : Option Frame → State → State
  | none, s => s
  | some frame, s => parseAndLatch frame s

/-- The parser does not touch the accumulator. -/
theorem parseAndLatch_clearAccumulator (frame : Frame) (s : State) :
    parseAndLatch frame (clearAccumulator s) = clearAccumulator (parseAndLatch frame s) := by
  unfold parseAndLatch
  rw [clearAccumulator_strict, clearAccumulator_ffMax]
  split <;> rfl

/-- A push writes the accumulator and parses the frame it cuts. -/
theorem pushBit_eq_parseCut (b : Bool) (s : State) :
    pushBit b s = { parseCut (cutFrame b s) s with sr := (pushBit b s).sr, len := (pushBit b s).len } := by
  unfold cutFrame
  cases hcut : cutNow (shiftIn b s.sr) (nextLen s.len) with
  | true =>
    rw [pushBit_cut hcut, parseAndLatch_clearAccumulator]
    rfl
  | false =>
    rw [pushBit_append hcut]
    rfl

/-- After a push the accumulator stands for the sequence after the push. -/
theorem accumulatorIs_pushBit {acc : List Bool} {s : State} (h : accumulatorIs acc s) (b : Bool) :
    accumulatorIs (tcePush b acc).1 (pushBit b s) := by
  rw [tcePush, tceCut_cons h b, cutFrame]
  cases hcut : cutNow (shiftIn b s.sr) (nextLen s.len) with
  | true =>
    rw [pushBit_cut hcut, parseAndLatch_clearAccumulator]
    exact accumulatorIs_nil rfl
  | false =>
    rw [pushBit_append hcut]
    exact accumulatorIs_appendBit h b

/-- The sequence and the accumulator cut the same frame. -/
theorem tcePush_cut {acc : List Bool} {s : State} (h : accumulatorIs acc s) (b : Bool) :
    (tcePush b acc).2 = cutFrame b s := by
  rw [tcePush, tceCut_cons h b]
  cases cutFrame b s <;> rfl

/-! ## Bit strings pushed into a cleared accumulator -/

theorem pushBits_concat (bits : List Bool) (b : Bool) (s : State) :
    pushBits (bits ++ [b]) s = pushBit b (pushBits bits s) := by
  induction bits generalizing s with
  | nil => rfl
  | cons c bits ih => exact ih (pushBit c s)

section
variable {s : State} (hlen : s.len = 0#7)
include hlen

/-- As long as the sequence is not cut, the bits only accumulate. -/
theorem pushBits_of_noCut (bits : List Bool) (hno : ∀ m ≤ bits.length, tceCut (bits.take m).reverse = none) :
    accumulatorIs bits.reverse (pushBits bits s) ∧
    pushBits bits s = { s with sr := (pushBits bits s).sr, len := (pushBits bits s).len } := by
  induction bits using List.reverseRecOn with
  | nil => exact ⟨accumulatorIs_nil hlen, rfl⟩
  | append_singleton bits b ih =>
    obtain ⟨hacc, hrest⟩ := ih fun m hm => by
      have hcut := hno m (by simp; omega)
      rwa [List.take_append_of_le_length hm] at hcut
    have hlast := hno (bits ++ [b]).length (Nat.le_refl _)
    rw [List.take_length, List.reverse_concat] at hlast
    have hacc' := accumulatorIs_pushBit hacc b
    have hrest' := pushBit_eq_parseCut b (pushBits bits s)
    rw [tcePush, hlast] at hacc'
    rw [← tceCut_cons hacc b, hlast, parseCut] at hrest'
    rw [pushBits_concat, List.reverse_concat]
    refine ⟨hacc', hrest'.trans ?_⟩
    rw [hrest]

/-- A bit string whose first cut is at its last bit has the effect of parsing the frame cut there. -/
theorem pushBits_cut_at_last (hsr : s.sr = 0#80) {bits : List Bool} {frame : Frame} (hpos : bits ≠ [])
    (hno : ∀ m < bits.length, tceCut (bits.take m).reverse = none) (hcut : tceCut bits.reverse = some frame) :
    pushBits bits s = parseAndLatch frame s := by
  obtain ⟨bits, b, rfl⟩ := (List.eq_nil_or_concat bits).resolve_left hpos
  rw [List.concat_eq_append] at hno hcut ⊢
  obtain ⟨hacc, hrest⟩ := pushBits_of_noCut hlen bits fun m hm => by
    have hcut := hno m (by simp; omega)
    rwa [List.take_append_of_le_length hm] at hcut
  have hclear : clearAccumulator (pushBits bits s) = s := by
    rw [hrest]
    unfold clearAccumulator
    rw [← hsr, ← hlen]
  rw [List.reverse_concat, tceCut_cons hacc b, cutFrame] at hcut
  obtain ⟨hnow, hframe⟩ := Option.ite_none_right_eq_some.mp hcut
  rw [pushBits_concat, pushBit_cut hnow, hclear, Option.some.inj hframe]

end

/-! ## The statements of spec/41_frame_sync.md R147 to R149 -/

/-- Settles O33: up to 80 bits nothing is cut, inside the second frame no sync word ends, and at its end the second frame
is cut. -/
theorem everySecondFrameIsCut : Obligations.EverySecondFrameIsCut := by
  intro s f g hsr hlen _ hg hinside
  have hf : (frameBits f).length = 80 := arrivalBits_length f
  have hlength : (frameBits f ++ frameBits g).length = 160 := by
    rw [List.length_append, hf]
    exact congrArg (80 + ·) (arrivalBits_length g)
  have hpos : frameBits f ≠ [] := List.ne_nil_of_length_pos (by omega)
  refine pushBits_cut_at_last hlen hsr (by simp [hpos]) (fun m hm => ?_) (tceCut_reverse_frame hpos hg)
  have htake : ((frameBits f ++ frameBits g).take m).length = m := by
    rw [List.length_take]
    omega
  by_cases hshort : m ≤ 80
  · exact tceCut_reverse_short (by omega)
  · have hnone := hinside (m - 80) (by omega) (by omega)
    refine tceCut_reverse_noSync ?_
    rwa [htake, List.drop_take, show m - (m - 16) = 16 by omega, show m - 16 = 64 + (m - 80) by omega]

/-- Settles O32: nothing is cut up to 80 bits, and at 81 bits the frame behind the first of them is. -/
theorem firstFrameNeedsABitInFront : Obligations.FirstFrameNeedsABitInFront := by
  intro s hsr hlen
  refine ⟨fun bits hbits => ?_, fun b frame hsync => ?_⟩
  · obtain ⟨⟨hcount, -⟩, hrest⟩ := pushBits_of_noCut hlen bits fun m hm =>
      tceCut_reverse_short (by rw [List.length_take]; omega)
    have hlen' : (pushBits bits s).len = BitVec.ofNat 7 bits.length := by
      apply BitVec.eq_of_toNat_eq
      rw [hcount, List.length_reverse, BitVec.toNat_ofNat]
      omega
    rwa [hlen'] at hrest
  · refine pushBits_cut_at_last hlen hsr (List.cons_ne_nil _ _) (fun m hm => tceCut_reverse_short ?_)
      (tceCut_reverse_frame (List.cons_ne_nil b []) hsync)
    rw [List.length_cons, frameBits_eq_arrivalBits, arrivalBits_length] at hm
    rw [List.length_take]
    omega

end Sys2Proof.Proofs
end

section
/-! SUPPORT. `SAMPLE` as a whole: what it writes besides the decoder is the parse of the frame it cuts, and the decoder's
fields go on standing for the source's unbounded ones (spec/10_state.md R51, R52; spec/40_demodulator.md R120 to R128). -/

open Sys2Proof Sys2Proof.Machine Sys2Proof.Laws

namespace Sys2Proof.Proofs

/-! ## Outside the decoder -/

/-- Outside the demodulator and the assembler, `t` is what the parse of the cut frame `r`, if any, makes of `s`. -/
def DecodesTo (r : Option Frame) (s t : State) : Prop :=
  t = { parseCut r s with lastPol := t.lastPol, run := t.run, toggle := t.toggle, sr := t.sr, len := t.len }

section
variable {r : Option Frame} {s t : State}

theorem decodesTo_refl (s : State) : DecodesTo none s s := rfl

theorem DecodesTo.startRun (h : DecodesTo r s t) (p : Polarity) : DecodesTo r s (startRun p t) :=
  congrArg (Machine.startRun p) h

theorem DecodesTo.setToggle (h : DecodesTo r s t) (b : Bool) : DecodesTo r s (setToggle b t) :=
  congrArg (Machine.setToggle b) h

/-- What parsing a cut frame can do. -/
theorem parseCut_cases (r : Option Frame) (s : State) :
    parseCut r s = s ∨ (∃ frame, parseCut r s = emitEvt (.frame (frameTimecode frame)) (updateLatch frame s)) ∨
      ∃ frame, parseCut r s = emitEvt (.malformed (frameTimecode frame)) (markMalformed s) := by
  cases r with
  | none => exact .inl rfl
  | some frame =>
    rcases parseAndLatch_cases frame s with h | ⟨-, -, h⟩
    · exact .inr (.inl ⟨frame, h⟩)
    · exact .inr (.inr ⟨frame, h⟩)

end

/-- A push touches neither the polarity, nor the run counter, nor the toggle. -/
theorem pushBit_demod (b : Bool) (s : State) :
    (pushBit b s).lastPol = s.lastPol ∧ (pushBit b s).run = s.run ∧ (pushBit b s).toggle = s.toggle := by
  rcases pushBit_cases b s with h | h | h <;> rw [h] <;> exact ⟨rfl, rfl, rfl⟩

theorem parseCut_demod (r : Option Frame) (s : State) :
    (parseCut r s).lastPol = s.lastPol ∧ (parseCut r s).run = s.run ∧ (parseCut r s).toggle = s.toggle := by
  rcases parseCut_cases r s with h | ⟨frame, h⟩ | ⟨frame, h⟩ <;> rw [h] <;> exact ⟨rfl, rfl, rfl⟩

theorem pushBit_decodesTo (b : Bool) (s : State) : DecodesTo (cutFrame b s) s (pushBit b s) := by
  obtain ⟨hpol, hrun, htoggle⟩ := pushBit_demod b s
  obtain ⟨hpol', hrun', htoggle'⟩ := parseCut_demod (cutFrame b s) s
  rw [DecodesTo, hpol, hrun, htoggle, ← hpol', ← hrun', ← htoggle']
  exact pushBit_eq_parseCut b s

/-- Every observed polarity decodes to the parse of some frame, or of none. -/
theorem observePolarity_decodesTo (p : Polarity) (s : State) : ∃ r, DecodesTo r s (observePolarity p s) := by
  rcases observePolarity_cases p s with h | h | h | h | h <;> rw [h]
  · exact ⟨none, rfl⟩
  · exact ⟨none, rfl⟩
  · exact ⟨none, rfl⟩
  · exact ⟨_, (pushBit_decodesTo false s).startRun p⟩
  · exact ⟨_, ((pushBit_decodesTo true s).setToggle false).startRun p⟩

/-! ## The unbounded decoder -/

section
variable {d : TceDecoder}

theorem tce_endRun_noise (h : d.run < 7) : TceDecoder.endRun d = (d, none) := by
  rw [TceDecoder.endRun, if_neg (by omega), if_neg (by omega)]

theorem tce_endRun_long (h : 14 < d.run) : TceDecoder.endRun d = TceDecoder.push false d := by
  rw [TceDecoder.endRun, if_neg (by omega), if_pos h]

theorem tce_endRun_short (hmin : 7 ≤ d.run) (hmax : d.run ≤ 14) : TceDecoder.endRun d =
    if d.toggle then TceDecoder.push true { d with toggle := false } else ({ d with toggle := true }, none) := by
  rw [TceDecoder.endRun, if_pos ⟨hmin, hmax⟩]

end

/-- What the source's decoder holds and cut, `e`, is what the block holds in `t` and cut on the way from `s`. -/
def Refines (e : TceDecoder × Option Frame) (s t : State) : Prop :=
  t.toggle = e.1.toggle ∧ accumulatorIs e.1.acc t ∧ DecodesTo e.2 s t

section
variable {d : TceDecoder} {s : State}

/-- A push on both sides. -/
theorem pushBit_refines (hacc : accumulatorIs d.acc s) (htoggle : s.toggle = d.toggle) (b : Bool) :
    Refines (TceDecoder.push b d) s (pushBit b s) := by
  obtain ⟨-, -, hkept⟩ := pushBit_demod b s
  refine ⟨hkept.trans htoggle, accumulatorIs_pushBit hacc b, ?_⟩
  rw [TceDecoder.push, tcePush_cut hacc b]
  exact pushBit_decodesTo b s

/-- The end of a run on both sides: the saturated counter has the class of the unbounded one (R52). -/
theorem endRun_refines (h : decoderIs d s) : Refines (TceDecoder.endRun d) s (endRun s) := by
  obtain ⟨-, hrun, htoggle, hacc⟩ := h
  by_cases hnoise : d.run < 7
  · rw [tce_endRun_noise hnoise, endRun_noise (by omega)]
    exact ⟨htoggle, hacc, decodesTo_refl s⟩
  by_cases hlong : 14 < d.run
  · rw [tce_endRun_long hlong, endRun_long (by omega), ← pushBit_false]
    exact pushBit_refines hacc htoggle false
  rw [tce_endRun_short (by omega) (by omega), endRun_short (by omega) (by omega), htoggle]
  cases d.toggle with
  | true =>
    obtain ⟨-, hpushed, hrest⟩ := pushBit_refines hacc htoggle true
    exact ⟨rfl, hpushed, hrest.setToggle false⟩
  | false => exact ⟨rfl, hacc, (decodesTo_refl s).setToggle true⟩

/-- One observation on both sides. -/
theorem observePolarity_refines (h : decoderIs d s) (p : Polarity) :
    decoderIs (TceDecoder.observe p d).1 (observePolarity p s) ∧
      DecodesTo (TceDecoder.observe p d).2 s (observePolarity p s) := by
  obtain ⟨hpol, hrun, htoggle, hacc⟩ := id h
  by_cases hsame : s.lastPol = some p
  · rw [observePolarity_same hsame, TceDecoder.observe, if_pos (hpol ▸ hsame)]
    refine ⟨⟨hpol, ?_, htoggle, hacc⟩, rfl⟩
    simp only [countRun_run, nextRun, Config.runSat, BitVec.toNat_ofNat, hrun]
    omega
  · rw [observePolarity_transition hsame, TceDecoder.observe, if_neg (hpol ▸ hsame)]
    obtain ⟨htoggle', hacc', hrest⟩ := endRun_refines h
    exact ⟨⟨rfl, rfl, htoggle', hacc'⟩, hrest.startRun p⟩

end

/-! ## The statements of spec/10_state.md R51, R52 and spec/40_demodulator.md R120, R124 -/

/-- Settles O31: the end of a run pushes the same bit on both sides, and the sequence and the accumulator cut the same
frame. -/
theorem boundedDecoderRefinesUnbounded : Obligations.BoundedDecoderRefinesUnbounded := by
  intro s d s0 s1 h
  obtain ⟨hdecoder, hrest⟩ := observePolarity_refines h (classify s0 s1)
  refine ⟨_, rfl, hdecoder, hrest.trans ?_⟩
  cases (TceDecoder.observe (classify s0 s1) d).2 <;> rfl

/-- Settles O28: besides the decoder there is the parse of a frame or nothing, and the parser latches or marks. -/
theorem sampleFrame : Obligations.SampleFrame := by
  intro s s0 s1
  obtain ⟨r, hrest⟩ := observePolarity_decodesTo (classify s0 s1) s
  refine ⟨_, rfl, ?_⟩
  rw [DecodesTo] at hrest
  generalize observePolarity (classify s0 s1) s = t at hrest ⊢
  rcases parseCut_cases r s with hr | ⟨frame, hr⟩ | ⟨frame, hr⟩ <;> rw [hr] at hrest <;> rw [hrest]
  · exact ⟨rfl, .inl ⟨rfl, rfl, rfl, rfl, rfl, rfl⟩⟩
  · exact ⟨rfl, .inr (.inl ⟨rfl, rfl⟩)⟩
  · exact ⟨rfl, .inr (.inr ⟨⟨_, rfl⟩, rfl, rfl, rfl, rfl, rfl⟩)⟩

/-- Settles O25: the pushed `1` does not complete a cut, so it only appends. -/
theorem sampleShortRunPushesOne : Obligations.SampleShortRunPushesOne := by
  rintro s s0 s1 _ rfl hpol hmin hmax htoggle hno
  rw [← shiftIn_true, ← cutNow_nextLen] at hno
  rw [exec_sample_transition hpol, endRun_short hmin hmax, if_pos htoggle,
    pushBit_append (Bool.eq_false_iff.mpr hno), ← shiftIn_true]
  rfl

end Sys2Proof.Proofs
end

section
/-! SUPPORT. Runs of samples: a run of one polarity counts up to its saturated length, and in biphase-mark code with
half-cells of 8 to 14 observations each bit is one long run or two short ones (spec/30_encoding.md R103;
spec/40_demodulator.md R122 to R132). -/

open Sys2Proof Sys2Proof.Machine Sys2Proof.Laws

namespace Sys2Proof.Proofs

/-! ## A run of one polarity -/

/-- The command is a `SAMPLE` of an observation of polarity `p`. -/
def Carries (p : Polarity) (i : Instr) : Prop := ∃ s0 s1, i = .sample s0 s1 ∧ classify s0 s1 = p

theorem carries_sampleOf (p : Polarity) : Carries p (sampleOf p) := by
  cases p
  · exact ⟨_, _, rfl, by decide⟩
  · exact ⟨_, _, rfl, by decide⟩

/-- The demodulator in a run of polarity `p`. -/
def inRun (p : Polarity) (run : BitVec 4) (toggle : Bool) (s : State) : State :=
  { s with lastPol := some p, run := run, toggle := toggle }

/-- The run counter after `n` observations (40_demodulator.md R127). -/
def runCount (n : Nat) : BitVec 4 := BitVec.ofNat 4 (min n 15)

theorem runCount_toNat (n : Nat) : (runCount n).toNat = min n 15 := by
  rw [runCount, BitVec.toNat_ofNat]
  omega

theorem nextRun_runCount (n : Nat) : nextRun (runCount n) = runCount (n + 1) := by
  rw [nextRun, runCount_toNat, runCount, Config.runSat]
  congr 1
  omega

/-- The parser does not look at the demodulator. -/
theorem parseAndLatch_inRun (frame : Frame) (p : Polarity) (run : BitVec 4) (toggle : Bool) (s : State) :
    parseAndLatch frame (inRun p run toggle s) = inRun p run toggle (parseAndLatch frame s) := by
  have hstrict : (inRun p run toggle s).strict = s.strict := rfl
  have hffMax : (inRun p run toggle s).ffMax = s.ffMax := rfl
  unfold parseAndLatch
  rw [hstrict, hffMax]
  split <;> rfl

/-- The assembler does not look at the demodulator. -/
theorem pushBit_inRun (b : Bool) (p : Polarity) (run : BitVec 4) (toggle : Bool) (s : State) :
    pushBit b (inRun p run toggle s) = inRun p run toggle (pushBit b s) := by
  cases hcut : cutNow (shiftIn b s.sr) (nextLen s.len) with
  | true =>
    rw [pushBit_cut hcut, pushBit_cut (s := inRun p run toggle s) hcut, ← parseAndLatch_inRun]
    rfl
  | false =>
    rw [pushBit_append hcut, pushBit_append (s := inRun p run toggle s) hcut]
    rfl

section
variable {p : Polarity} {run : BitVec 4} {toggle : Bool} {i : Instr}

/-- The first observation of a pass starts a run and emits nothing. -/
theorem exec_first (h : Carries p i) {s : State} (hpol : s.lastPol = none) (hrun : s.run = 1#4) :
    exec i s = .next (inRun p (runCount 1) s.toggle s) := by
  obtain ⟨s0, s1, rfl, rfl⟩ := h
  rw [exec_sample_transition (by rw [hpol]; exact nofun), endRun_noise (by simp [hrun])]
  rfl

/-- More observations of the same polarity are counted. -/
theorem execList_sameRun {is : List Instr} (his : ∀ i ∈ is, Carries p i) (n : Nat) (toggle : Bool) (s : State) :
    execList is (inRun p (runCount n) toggle s) = .next (inRun p (runCount (n + is.length)) toggle s) := by
  induction is generalizing n with
  | nil => rfl
  | cons i is ih =>
    obtain ⟨hi, his⟩ := List.forall_mem_cons.mp his
    have hcount : exec i (inRun p (runCount n) toggle s) = .next (inRun p (runCount (n + 1)) toggle s) := by
      obtain ⟨s0, s1, rfl, rfl⟩ := hi
      rw [exec_sample_same rfl, ← nextRun_runCount]
      rfl
    rw [execList_cons_of_next hcount, ih his, List.length_cons, Nat.add_right_comm, Nat.add_assoc]

/-- A run of `n` observations, from its first on. -/
theorem execList_runOf {s u : State} (hfirst : exec (sampleOf p) s = .next (inRun p (runCount 1) toggle u)) {n : Nat}
    (hn : 0 < n) : execList (runOf p n) s = .next (inRun p (runCount n) toggle u) := by
  obtain ⟨n, rfl⟩ := Nat.exists_eq_add_of_lt hn
  rw [Nat.zero_add, runOf, List.replicate_succ, execList_cons_of_next hfirst, execList_sameRun, List.length_replicate,
    Nat.add_comm]
  intro i hi
  rw [List.eq_of_mem_replicate hi]
  exact carries_sampleOf p

/-- The observation after a run of the other polarity ends that run. -/
theorem exec_next_run (s : State) : exec (sampleOf (Polarity.flip p)) (inRun p run toggle s) =
    .next (startRun (Polarity.flip p) (endRun (inRun p run toggle s))) := by
  obtain ⟨s0, s1, hi, hq⟩ := carries_sampleOf (Polarity.flip p)
  have hne : (inRun p run toggle s).lastPol ≠ some (classify s0 s1) := by
    rw [hq]
    cases p <;> exact nofun
  rw [hi, exec_sample_transition hne, hq]

/-- R125: a long run pushed a `0`. -/
theorem exec_after_long (hlong : 14 < run.toNat) (s : State) :
    exec (sampleOf (Polarity.flip p)) (inRun p run toggle s) =
      .next (inRun (Polarity.flip p) (runCount 1) toggle (pushBit false s)) := by
  rw [exec_next_run, endRun_long (s := inRun p run toggle s) hlong, ← pushBit_false, pushBit_inRun]
  rfl

/-- R124: a short run with the toggle set pushed a `1` and cleared the toggle. -/
theorem exec_after_short_set (hmin : 7 ≤ run.toNat) (hmax : run.toNat ≤ 14) (s : State) :
    exec (sampleOf (Polarity.flip p)) (inRun p run true s) =
      .next (inRun (Polarity.flip p) (runCount 1) false (pushBit true s)) := by
  have htoggle : (inRun p run true s).toggle = true := rfl
  rw [exec_next_run, endRun_short (s := inRun p run true s) hmin hmax, if_pos htoggle, pushBit_inRun]
  rfl

/-- R124: a short run with the toggle clear set it. -/
theorem exec_after_short_clear (hmin : 7 ≤ run.toNat) (hmax : run.toNat ≤ 14) (s : State) :
    exec (sampleOf (Polarity.flip p)) (inRun p run false s) = .next (inRun (Polarity.flip p) (runCount 1) true s) := by
  rw [exec_next_run, endRun_short (s := inRun p run false s) hmin hmax, if_neg nofun]
  rfl

end

/-! ## Biphase-mark code -/

theorem flip_flip (p : Polarity) : Polarity.flip (Polarity.flip p) = p := by cases p <;> rfl

theorem expand_bmc_false (h : Nat) (bits : List Bool) (p : Polarity) :
    Pseudo.expand (.bmc (false :: bits) h p) = runOf p (2 * h) ++ Pseudo.expand (.bmc bits h (Polarity.flip p)) := rfl

theorem expand_bmc_true (h : Nat) (bits : List Bool) (p : Polarity) :
    Pseudo.expand (.bmc (true :: bits) h p) =
      runOf p h ++ (runOf (Polarity.flip p) h ++ Pseudo.expand (.bmc bits h p)) := rfl

/-- The samples of a bit string and one of the run that follows push the bits of the string. The state before them is
given by its first sample, which ends whatever run stood before: so the induction goes over the bits, a `0` being one
long run and a `1` two short ones. -/
theorem execList_bmc {h : Nat} (hmin : 8 ≤ h) (hmax : h ≤ 14) (bits : List Bool) {p : Polarity} {s u : State}
    (hfirst : exec (sampleOf p) s = .next (inRun p (runCount 1) true u)) :
    execList (Pseudo.expand (.bmc bits h p) ++ [sampleOf (bmcNext bits p)]) s =
      .next (inRun (bmcNext bits p) (runCount 1) true (pushBits bits u)) := by
  have hshort := runCount_toNat h
  induction bits generalizing p s u with
  | nil => exact (execList_cons_of_next hfirst []).trans rfl
  | cons b bits ih =>
    cases b with
    | false =>
      have hlong := runCount_toNat (2 * h)
      rw [expand_bmc_false, List.append_assoc, execList_append_of_next (execList_runOf hfirst (by omega))]
      exact ih (exec_after_long (by omega) u)
    | true =>
      have hsecond := exec_after_short_set (p := p) (run := runCount h) (by omega) (by omega) u
      have hthird := exec_after_short_clear (p := Polarity.flip p) (run := runCount h) (by omega) (by omega)
        (pushBit true u)
      rw [flip_flip] at hthird
      rw [expand_bmc_true, List.append_assoc, execList_append_of_next (execList_runOf hfirst (by omega)),
        List.append_assoc, execList_append_of_next (execList_runOf hsecond (by omega))]
      exact ih hthird

/-! ## The statements of spec/30_encoding.md R103 and spec/40_demodulator.md R132 -/

/-- Settles O30: the first sample of the signal starts a run, and the runs that follow push the bits. -/
theorem biphaseMarkSignalDecodesCleanly : Obligations.BiphaseMarkSignalDecodesCleanly := by
  intro h bits p s hmin hmax hpol hrun htoggle
  have hfirst := exec_first (carries_sampleOf p) hpol hrun
  rw [htoggle] at hfirst
  exact execList_bmc hmin hmax bits hfirst

/-- Settles O29: the first pair starts a run and the others are counted. -/
theorem constantPolarityDecodesNothing : Obligations.ConstantPolarityDecodesNothing := by
  intro p pairs s hpol hrun hpairs hclass
  obtain ⟨q, rest, rfl⟩ := List.exists_cons_of_ne_nil hpairs
  have hcarries : ∀ i ∈ (q :: rest).map fun q => Instr.sample q.1 q.2, Carries p i := by
    intro i hi
    obtain ⟨q, hq, rfl⟩ := List.mem_map.mp hi
    exact ⟨q.1, q.2, rfl, hclass q hq⟩
  rw [List.map_cons] at hcarries ⊢
  obtain ⟨hq, hrest⟩ := List.forall_mem_cons.mp hcarries
  rw [execList_cons_of_next (exec_first hq hpol hrun), execList_sameRun hrest, List.length_map, Nat.add_comm]
  rfl

end Sys2Proof.Proofs
end

section
/-! SUPPORT. Steps and the list of pins: what each kind of pins does in a step, commands presented one after another, and
what one step can emit (spec/20_memory.md R71; spec/30_encoding.md R116; spec/60_exceptions.md R258;
spec/70_reset_and_hazards.md R280). -/

open Sys2Proof Sys2Proof.Machine Sys2Proof.Laws

namespace Sys2Proof.Proofs

/-! ## One step by the pins it takes -/

section
variable {s : State} {p : Pins} {ps : List Pins}

theorem step_idle (h : s.inputs = []) : step s = .next s := by
  simp only [step, stepInputs, h]

theorem step_takePins (h : s.inputs = p :: ps) : step s = takePins p (withInputs ps s) := by
  simp only [step, stepInputs, h]

theorem step_rst (h : s.inputs = p :: ps) (hrst : p.rst = true) : step s = .next (fullReset (withInputs ps s)) :=
  (step_takePins h).trans (if_pos hrst)

theorem step_notValid (h : s.inputs = p :: ps) (hrst : p.rst = false) (hvalid : p.cmdValid = false) :
    step s = .next (withInputs ps s) := by
  rw [step_takePins h, takePins, hrst, hvalid]
  rfl

theorem step_valid (h : s.inputs = p :: ps) (hrst : p.rst = false) (hvalid : p.cmdValid = true) :
    step s = runCommand p.cmd (withInputs ps s) := by
  rw [step_takePins h, takePins, hrst, hvalid]
  rfl

end

/-- A presented word is run by the next step, on the state with the words behind it presented. -/
theorem step_present (w : CmdWord) (ws : List CmdWord) (s : State) :
    step (present (w :: ws) s) = runCommand w (present ws s) :=
  step_valid (p := commandPins w) rfl rfl rfl

theorem decode_of_decodeTableWord {nbits w : Nat} {i : Instr} (h : decodeTableWord nbits w = some i) :
    decode (tableWord nbits w) = .instr i := by
  unfold decodeTableWord at h
  split at h
  · rename_i hdecode
    rw [hdecode, Option.some.inj h]
  · exact absurd h nofun

/-! ## Presented commands -/

/-- The command presented first runs and leaves the others presented, before what was presented already. -/
theorem step_present_encode {i : Instr} {s t : State} (h : exec i s = .next t) (ws : List CmdWord) :
    step (present (encode i :: ws) s) = .next (present ws t) := by
  rw [step_present, runCommand_of_decode (decode_encode i), present, exec_withInputs i _ s t h, present,
    exec_inputs i s t h]

/-- One step of a run, for any machine. -/
theorem run_succ_of_next {M : Host.Core} {s t : M.State} (h : M.step s = .next t) (k : Nat) :
    M.run (k + 1) s = M.run k t := by
  rw [Host.Core.run, h]

/-- As many steps as there are commands run them all, one after another; what was presented behind them stays. -/
theorem run_present (is : List Instr) (s : State) :
    Host.Core.run core is.length (present (is.map encode) s) = execList is s := by
  induction is generalizing s with
  | nil => rfl
  | cons i is ih =>
    obtain ⟨t, ht⟩ := exec_next i s
    have hstep : core.step (present (encode i :: is.map encode) s) = .next (present (is.map encode) t) :=
      step_present_encode ht _
    rw [execList_cons_of_next ht, ← ih t]
    exact run_succ_of_next hstep is.length

/-! ## What a step emits -/

/-- A step emits one of the five outputs of a command, or nothing. -/
theorem step_emits (s : State) : ∃ t o, step s = .next t ∧ Emits o s t := by
  rcases step_cases s with ⟨-, h⟩ | ⟨p, ps, -, ⟨-, h⟩ | ⟨-, -, h⟩ | ⟨-, -, h⟩⟩
  · exact ⟨s, .silent, h, .of_traces_eq rfl rfl rfl⟩
  · exact ⟨_, .silent, h, .of_traces_eq rfl rfl rfl⟩
  · exact ⟨_, .silent, h, .of_traces_eq rfl rfl rfl⟩
  · obtain ⟨t, o, hrun, hrsp, hevt, hseg⟩ := runCommand_emits p.cmd (withInputs ps s)
    exact ⟨t, o, h.trans hrun, hrsp, hevt, hseg⟩

/-- A record is all that its step emits. -/
theorem Emits.of_record {o : StepOutput} {s t : State} (h : Emits o s t) (hseg : t.segTrace ≠ s.segTrace) :
    t.evtTrace = s.evtTrace ∧ t.rspTrace = s.rspTrace := by
  obtain ⟨hrsp', hevt', hseg'⟩ := h
  cases o with
  | record g => exact ⟨by simpa using hevt', by simpa using hrsp'⟩
  | _ => exact absurd (by simpa using hseg') hseg

/-- A response comes with no event, but for the refused read. -/
theorem Emits.of_response {o : StepOutput} {s t : State} (h : Emits o s t) (hrsp : t.rspTrace ≠ s.rspTrace) :
    t.evtTrace = s.evtTrace ∨
      (t.rspTrace = s.rspTrace ++ [⟨true, 0#32⟩] ∧ t.evtTrace = s.evtTrace ++ [.fault .illreg]) := by
  obtain ⟨hrsp', hevt', -⟩ := h
  cases o with
  | response r => exact .inl (by simpa using hevt')
  | refusedRead => exact .inr ⟨hrsp', hevt'⟩
  | _ => exact absurd (by simpa using hrsp') hrsp

/-! ## The statements about steps -/

/-- Settles O11: of the five outputs only the refused read has two parts. -/
theorem outputsOfOneStepExclude : Obligations.OutputsOfOneStepExclude := by
  intro s
  obtain ⟨t, o, hstep, hemits⟩ := step_emits s
  exact ⟨t, hstep, hemits.of_record, hemits.of_response⟩

/-- Settles O12: each step runs the command presented first and leaves the others presented. -/
theorem presentedCommandsRunInOrder : Obligations.PresentedCommandsRunInOrder := fun is s _ => run_present is s

/-- Settles O6: valid pins without `rst` run their word, and so does a word placed by `withFetchWord`. -/
theorem stepRunsDecodedCommand : Obligations.StepRunsDecodedCommand := by
  refine ⟨fun s p ps hinputs hrst hvalid => ⟨fun i hi => ?_, fun op hop => ?_⟩, fun s i w hi => ?_⟩
  · exact (step_valid hinputs hrst hvalid).trans (runCommand_of_decode hi _)
  · exact (step_valid hinputs hrst hvalid).trans (runCommand_reserved hop _)
  · exact (step_present (tableWord 72 w) [] s).trans (runCommand_of_decode (decode_of_decodeTableWord hi) s)

/-- Settles O7: `rst` and `SRST` are the one full reset. -/
theorem resetPinActsAsSrst : Obligations.ResetPinActsAsSrst := fun _ _ _ hinputs hrst =>
  ⟨step_rst hinputs hrst, step_rst hinputs hrst⟩

/-- Settles O8: without pins, or with neither `rst` nor a valid word, no command runs. -/
theorem nothingPresentedChangesNothing : Obligations.NothingPresentedChangesNothing :=
  ⟨fun _ => step_idle, fun _ _ _ => step_notValid⟩

end Sys2Proof.Proofs
end

section
/-! SUPPORT. What a frame's own bits say of its timecode and its range check, and what `STATUS` and the registers say
(spec/10_state.md R38 to R46; spec/42_frame_parser_latch.md R162 to R170; spec/60_exceptions.md R263). -/

open Sys2Proof Sys2Proof.Machine Sys2Proof.Laws

namespace Sys2Proof.Proofs

/-! ## Frames -/

/-- A field below the sync word is a field of the first 64 bits. -/
theorem fieldValue_congr {frame other : Frame} (h : other.extractLsb' 0 64 = frame.extractLsb' 0 64)
    (p : Config.FieldPos) (hp : p.lo + p.width ≤ 64) : fieldValue p other = fieldValue p frame := by
  have hslice : ∀ x : Frame, x.extractLsb' p.lo p.width = (x.extractLsb' 0 64).extractLsb' p.lo p.width := fun x => by
    rw [extract_extract x 0 64 hp, Nat.zero_add]
  rw [fieldValue, fieldValue, hslice other, hslice frame, h]

/-- The sync word takes no part in the fields (R162). -/
theorem rawFields_congr {frame other : Frame} (h : other.extractLsb' 0 64 = frame.extractLsb' 0 64) :
    rawFields other = rawFields frame := by
  unfold rawFields
  simp only [fieldValue_congr h ltcLayout.fu (by decide), fieldValue_congr h ltcLayout.ft (by decide),
    fieldValue_congr h ltcLayout.su (by decide), fieldValue_congr h ltcLayout.st (by decide),
    fieldValue_congr h ltcLayout.mu (by decide), fieldValue_congr h ltcLayout.mt (by decide),
    fieldValue_congr h ltcLayout.hu (by decide), fieldValue_congr h ltcLayout.ht (by decide)]

/-- The range check, condition by condition (R170). -/
theorem frameValid_iff (r : RawFields) (ffMax : BitVec 6) : frameValid r ffMax = true ↔
    r.fu ≤ 9 ∧ r.su ≤ 9 ∧ r.mu ≤ 9 ∧ r.hu ≤ 9 ∧ r.st ≤ 5 ∧ r.mt ≤ 5 ∧ fieldHH r ≤ 23 ∧ fieldFF r ≤ ffMax.toNat := by
  simp only [frameValid, Bool.and_eq_true, decide_eq_true_eq, and_assoc]

/-! ## Registers -/

/-- The four fault bits are a slice of `STATUS` (10_state.md R41). -/
theorem statusWord_faultBits (s : State) : (statusWord s).extractLsb' 4 4 = 0#4 ↔
    s.fIllcmd = false ∧ s.fIllreg = false ∧ s.fBadtc = false ∧ s.fOrder = false := by
  obtain ⟨-, -, -, -, hillcmd, hillreg, hbadtc, horder, -⟩ := statusWord_fields s
  rw [← hillcmd, ← hillreg, ← hbadtc, ← horder]
  simp only [← BitVec.toNat_inj, extract_toNat, getLsbD_eq_iff_toNat, BitVec.toNat_ofNat, Bool.toNat_false]
  omega

/-! ## The statements about frames and registers -/

/-- Settles O34: the packed digits are the two digits of each field value, and the fields lie below the sync word. -/
theorem frameTimecodeDigits : Obligations.FrameTimecodeDigits := by
  rintro frame _ _ _ _ rfl rfl rfl rfl
  obtain ⟨h7, h6, h5, h4, h3, h2, h1, h0⟩ := frameTimecode_digits frame
  obtain ⟨hff, hss, hmm, hhh⟩ := fieldValues_le frame
  refine ⟨h7, h6, h5, h4, h3, h2, h1, h0, hff, hss, hmm, hhh, frameTimecode_isDecimal frame, fun other h => ?_⟩
  rw [frameTimecode, rawFields_congr h, ← frameTimecode]

/-- Settles O36: the check names the frame's own fields; digits and tens of two bits cannot exceed 39. -/
theorem rangeCheckOfAFrame : Obligations.RangeCheckOfAFrame := by
  rintro frame ffMax _ _ _ _ _ _ _ _ rfl rfl rfl rfl rfl rfl rfl rfl
  refine ⟨frameValid_iff (rawFields frame) ffMax, fun hmax => (frameValid_iff (rawFields frame) ffMax).trans ?_⟩
  obtain ⟨-, hft, -⟩ := rawFields_bounds frame
  constructor
  · rintro ⟨hfu, hsu, hmu, hhu, hst, hmt, hhh, -⟩
    exact ⟨hfu, hsu, hmu, hhu, hst, hmt, hhh⟩
  · rintro ⟨hfu, hsu, hmu, hhu, hst, hmt, hhh⟩
    have hff : fieldFF (rawFields frame) ≤ 39 := Nat.add_le_add (Nat.mul_le_mul_right 10 (Nat.le_of_lt_succ hft)) hfu
    exact ⟨hfu, hsu, hmu, hhu, hst, hmt, hhh, hff.trans hmax⟩

/-- Settles O50: the four bits are those of the four faults. -/
theorem faultFreeReadsInStatus : Obligations.FaultFreeReadsInStatus := by
  intro s
  rw [statusWord_faultBits]
  constructor
  · exact fun hfree => ⟨hfree .illcmd, hfree .illreg, hfree .badtc, hfree .order⟩
  · rintro ⟨hillcmd, hillreg, hbadtc, horder⟩ (_ | _ | _ | _)
    · exact hillcmd
    · exact hillreg
    · exact hbadtc
    · exact horder

/-- Settles O15: the registers of the one reset state, evaluated. -/
theorem resetRegisterValues : Obligations.ResetRegisterValues := by
  refine ⟨?_, ?_, ?_, ?_, ?_, ?_, ?_⟩ <;> decide

end Sys2Proof.Proofs
end
